-- ==== Sys2Proof/Word.lean ====
section
/-! DEFINITION. The two widths of the machine: the 8-bit byte of registers and memory cells, the 16-bit address
(spec/00_scope.md R6). -/

namespace Sys2Proof

/-- A data register's value, a memory cell, one byte of an instruction (00_scope.md R6, 10_state.md R20). -/
abbrev Byte := BitVec 8

/-- A 16-bit address, the width of the program counter (00_scope.md R6, 10_state.md R21). -/
abbrev Addr := BitVec 16

end Sys2Proof
end

