-- ==== Sys2Proof/Machine/Bits.lean ====
section
/-! DEFINITION. The bit-field, extension and byte-order helpers of spec/00_scope.md section 6. -/

namespace Sys2Proof

/-- `{hi, lo} = hi * 256 + lo` (00_scope.md section 6; the byte order of 20_memory.md R53 is the caller's). -/
def joinBytes (hi lo : Byte) : Addr := hi ++ lo

/-- `v[7:0]`. -/
def lowByte (w : Addr) : Byte := w.extractLsb' 0 8

/-- `v[15:8]`. -/
def highByte (w : Addr) : Byte := w.extractLsb' 8 8

/-- `zext_8`: a byte as a 16-bit address in 0x0000 to 0x00FF (30_encoding.md R86). -/
def zext8 (b : Byte) : Addr := b.setWidth 16

/-- `sext_8`: a byte as a two's-complement displacement, reduced modulo 65536 (30_encoding.md R89). -/
def sext8 (b : Byte) : Addr := b.signExtend 16

end Sys2Proof
end

