-- ==== Sys2Proof/Config.lean ====
section
/-! DEFINITION. What one machine fixes for its whole life: the constants the spec gives, and the one value it leaves
open. -/

namespace Sys2Proof.Config

/-- `BRK_CYCLES`, the natural number that BRK adds to `cycles`. The spec leaves it OPEN (00_scope.md R6,
92_eei_decisions.md D6), so it has no body: nothing can be proved about its value. Log 1. -/
opaque brkCycles : Nat

/-- `ORIGIN`, the address of a program's first byte (00_scope.md R6, 45_assembler.md R231). -/
def origin : Nat := 0x0200

/-- The number of bytes of the address space (00_scope.md R6, 10_state.md R30). -/
def memorySize : Nat := 65536

/-- The longest byte list that `load` accepts: the bytes from the origin to 0xFFFF (70_reset_and_hazards.md R332). -/
def maxProgram : Nat := memorySize - origin

end Sys2Proof.Config
end

