-- ==== Sys2Proof/Machine/State.lean ====
section
/-! DEFINITION. Every piece of state the spec gives the machine (spec/10_state.md R20 to R32), the reasons for which it
may stop, and the state after reset. -/

namespace Sys2Proof.Machine

/-- Memory as the list of the bytes that differ from `unlistedByte`, by rising address. Log 2. -/
abbrev Memory := List Host.Cell

/-- What an address that the list leaves out reads as: memory is all zero at construction and zero-filled by `load`
(70_reset_and_hazards.md R330, R332). Log 2. -/
def unlistedByte : Byte := 0

/-- The canonical form: addresses strictly rising and inside the address space, and no entry equal to `unlistedByte`. -/
abbrev Memory.wf (m : Memory) : Prop :=
  m.Pairwise (fun p q => p.1 < q.1) ∧ ∀ c ∈ m, c.2 ≠ unlistedByte ∧ c.1 < Config.memorySize

/-- The architectural state of the CPU Engine; the list is complete (10_state.md R31). -/
structure State where
  /-- accumulator (R20) -/
  A : Byte
  /-- index register (R20) -/
  X : Byte
  /-- index register, never used as an index (R20) -/
  Y : Byte
  /-- program counter: between steps the address of the next opcode byte (R21) -/
  PC : Addr
  /-- stack pointer: `0x0100 + SP` is the next free slot (R23) -/
  SP : Byte
  /-- negative flag (R24, R25) -/
  N : Bool
  /-- overflow flag (R24, R26) -/
  V : Bool
  /-- zero flag (R24, R25) -/
  Z : Bool
  /-- carry flag (R24, R26) -/
  C : Bool
  /-- run state: true is RUNNING, false is HALTED (R27) -/
  running : Bool
  /-- cycle counter, unbounded (R28) -/
  cycles : Nat
  /-- step counter, unbounded (R29) -/
  steps : Nat
  /-- the 65536 bytes of memory (R30) -/
  mem : Memory
  deriving DecidableEq, Repr

/-- Why a step could fault. There is no reason: "The CPU Engine raises no synchronous exception" and every access
succeeds (60_exceptions.md R300, R301), so the type is empty and no step can answer a fault. Log 6. -/
inductive Fault where
  deriving DecidableEq, Repr

/-- Why a source text is outside the language, so that the spec gives `assemble` no output for it (45_assembler.md
R261). Raised by the assembler alone; each is safe: the model says nothing where the spec says nothing. Log 11. -/
inductive AsmRefusal where
  /-- a mnemonic that is none of the 35 (R242) -/
  | unknownMnemonic
  /-- a (mnemonic, mode) pair that is no row of the Instruction Table -/
  | noSuchForm
  /-- an operand after a mnemonic that takes none -/
  | unexpectedOperand
  /-- no operand after a mnemonic that takes one, or nothing after `#` -/
  | missingOperand
  /-- a value text that is neither `$`- or digit-initial nor an identifier -/
  | badValue
  /-- whitespace inside an operand -/
  | spaceInOperand
  /-- two labels on one line, or a colon that does not directly follow a leading identifier -/
  | labelForm
  /-- the same label defined twice -/
  | duplicateLabel
  /-- a program whose last byte would lie above 0xFFFF -/
  | programTooLarge
  deriving DecidableEq, Repr

/-- Why the model gives no meaning. None of these is raised by an instruction of the hardware. -/
inductive Refusal where
  /-- An arm of `exec` whose instruction has no meaning yet. Raised by no arm of this model; safe. -/
  | notModelled (mnemonic : String)
  /-- `load` of a byte list longer than 0xFE00 bytes, to which the spec gives no meaning (70_reset_and_hazards.md R332).
  Raised by the host command `load`; safe. Log 17. -/
  | loadTooLarge (bytes : Nat)
  /-- `assemble` of a text outside the language (45_assembler.md R261). Raised by the host command `assemble`; safe. -/
  | sourceRefused (reason : AsmRefusal)
  deriving DecidableEq, Repr

/-- The machine right after construction: the values of `reset()` with all-zero memory (10_state.md R32,
70_reset_and_hazards.md R330). What the command `reset()` does to a machine in use is `State.resetCommand`. Log 3. -/
def State.reset : State where
  A := 0
  X := 0
  Y := 0
  PC := 0x0000
  SP := 0xFF
  N := false
  V := false
  Z := false
  C := false
  running := true
  cycles := 0
  steps := 0
  mem := []

end Sys2Proof.Machine
end

