-- ==== Sys2Proof/Machine/Ops.lean ====
section
/-! DEFINITION. The operations over memory, the program counter and the stack that every meaning shares
(spec/20_memory.md R50 to R58). The hardware takes no exception and returns from none (60_exceptions.md R300, R304,
R305), so there is no exception entry here. -/

namespace Sys2Proof.Machine

/-! ## Memory -/

/-- The byte at an address. -/
def Memory.read : Memory → Nat → Byte
  | [], _ => unlistedByte
  | c :: m, a => if c.1 = a then c.2 else Memory.read m a

/-- Forget the entry of an address, which then reads as `unlistedByte`. -/
def Memory.erase (m : Memory) (a : Nat) : Memory := m.filter (fun c => c.1 != a)

/-- List an address before the first higher one. -/
def Memory.insert : Memory → Nat → Byte → Memory
  | [], a, v => [(a, v)]
  | c :: m, a, v => if a < c.1 then (a, v) :: c :: m else c :: Memory.insert m a v

/-- Store a byte, keeping the canonical form: the value an unlisted address reads as is not listed. -/
def Memory.write (m : Memory) (a : Nat) (v : Byte) : Memory :=
  if v = unlistedByte then m.erase a else (m.erase a).insert a v

/-- Store bytes at consecutive addresses from `a` up. -/
def Memory.writeBytes (m : Memory) (a : Nat) : List Byte → Memory
  | [] => m
  | b :: bs => Memory.writeBytes (m.write a b) (a + 1) bs

namespace State

/-- `MemRead(addr, 1)` (20_memory.md R51). -/
def memRead (s : State) (a : Addr) : Byte := s.mem.read a.toNat

/-- `MemWrite(addr, 1, v)` (20_memory.md R51). -/
def memWrite (s : State) (a : Addr) (v : Byte) : State := { s with mem := s.mem.write a.toNat v }

/-! ## Stack -/

end State

/-- The address `0x0100 + SP`, always in 0x0100 to 0x01FF (20_memory.md R58, 10_state.md R23). -/
def stackAddr (sp : Byte) : Addr := 0x0100 + zext8 sp

namespace State

/-- `Push(v)` (20_memory.md R58). -/
def push (s : State) (v : Byte) : State := { s.memWrite (stackAddr s.SP) v with SP := s.SP - 1 }

/-- `Pop()`: the byte read, and the state with SP moved; the byte stays in memory (20_memory.md R58). -/
def pop (s : State) : Byte × State := (s.memRead (stackAddr (s.SP + 1)), { s with SP := s.SP + 1 })

/-! ## The end of an instruction -/

/-- The end of an instruction that transfers control: PC at the target, the cost added, one step counted
(30_encoding.md R97, 10_state.md R28, R29). -/
def transfer (s : State) (target : Addr) (cost : Nat) : State :=
  { s with PC := target, cycles := s.cycles + cost, steps := s.steps + 1 }

/-- The end of an instruction that goes on to the next one: PC past its bytes, modulo 65536 (10_state.md R21, R22). -/
def retire (s : State) (bytes : Addr) (cost : Nat) : State := s.transfer (s.PC + bytes) cost

end State

end Sys2Proof.Machine
end

