-- ==== Sys2Proof/Machine/Flags.lean ====
section
/-! DEFINITION. The flag computations (spec/10_state.md R25, R26; 41_arithmetic_logic_compare.md R135 to R138). -/

namespace Sys2Proof.Machine

/-- What `AddC` and `SubC` return. -/
structure ArithResult where
  result   : Byte
  carry    : Bool
  overflow : Bool
  deriving DecidableEq, Repr

/-- `AddC(a, m, c)` (R135): the sum over the integers, reduced modulo 256. -/
def addC (a m : Byte) (c : Bool) : ArithResult :=
  let sum := a.toNat + m.toNat + c.toNat
  let result := BitVec.ofNat 8 sum
  { result
    carry := decide (sum > 255)
    overflow := ((a ^^^ result) &&& (m ^^^ result) &&& 0x80) != 0 }

/-- `SubC(a, m, c)` (R136): `C_out` is `a >= m` and does not look at `c` (90_conflicts.md C2). -/
def subC (a m : Byte) (c : Bool) : ArithResult :=
  let result := BitVec.ofInt 8 (a.toNat - m.toNat - (1 - c.toNat))
  { result
    carry := decide (a.toNat ≥ m.toNat)
    overflow := ((a ^^^ m) &&& (a ^^^ result) &&& 0x80) != 0 }

namespace State

/-- `SetNZ(v)` (R25). -/
def setNZ (s : State) (v : Byte) : State := { s with N := v.getLsbD 7, Z := v == 0 }

/-- `Cmp(r, m)` (R137): N, Z from the wrapped difference, C from the unsigned comparison; V unchanged. -/
def compare (s : State) (r m : Byte) : State :=
  { s.setNZ (BitVec.ofInt 8 (r.toNat - m.toNat)) with C := decide (r.toNat ≥ m.toNat) }

/-- `A <- r; C <- c; V <- v; SetNZ(r)`, the end of ADC and SBC (R140, R142). -/
def setArith (s : State) (r : ArithResult) : State :=
  { s with A := r.result, C := r.carry, V := r.overflow }.setNZ r.result

/-- `A <- v; SetNZ(v)`. -/
def loadA (s : State) (v : Byte) : State := { s with A := v }.setNZ v

/-- `X <- v; SetNZ(v)`. -/
def loadX (s : State) (v : Byte) : State := { s with X := v }.setNZ v

/-- `Y <- v; SetNZ(v)`. -/
def loadY (s : State) (v : Byte) : State := { s with Y := v }.setNZ v

end State

end Sys2Proof.Machine
end

