-- ==== Sys2Proof/Machine/Operands.lean ====
section
/-! DEFINITION. The operand forms: effective addresses, operand values and the branch target, from the operand bytes of
the instruction (spec/30_encoding.md R85 to R90, 20_memory.md R59, R60). An immediate operand is its byte (R85). -/

namespace Sys2Proof.Machine.State

/-- `EA(ZP)`: the operand byte, in 0x0000 to 0x00FF (R86). -/
def eaZp (_s : State) (z : Byte) : Addr := zext8 z

/-- `EA(ZPX)`: `(zp8 + X) mod 256`, which never leaves the zero page (R87, 20_memory.md R59). -/
def eaZpx (s : State) (z : Byte) : Addr := zext8 (z + s.X)

/-- `EA(ABS)`: the 16-bit operand (R88). -/
def eaAbs (_s : State) (addr : Addr) : Addr := addr

/-- `Operand(ZP)` (R90). -/
def operandZp (s : State) (z : Byte) : Byte := s.memRead (s.eaZp z)

/-- `Operand(ZPX)` (R90). -/
def operandZpx (s : State) (z : Byte) : Byte := s.memRead (s.eaZpx z)

/-- `Operand(ABS)` (R90). -/
def operandAbs (s : State) (addr : Addr) : Byte := s.memRead (s.eaAbs addr)

/-- The address after a branch that starts at PC: `call + 2` (R89). -/
def afterBranch (s : State) : Addr := s.PC + 2

/-- The target of a branch that starts at PC: `(call + 2 + sext_8(d)) mod 65536` (R89). -/
def branchTarget (s : State) (d : Byte) : Addr := s.afterBranch + sext8 d

end Sys2Proof.Machine.State
end

