-- ==== Sys2Proof/Machine/Arithmetic.lean ====
section
/-! DEFINITION. Arithmetic, logic and compare (spec/41_arithmetic_logic_compare.md R140 to R152). -/

namespace Sys2Proof.Machine

/-- ADC immediate: 2 bytes, 2 cycles (R140). -/
def execAdcImm (v : Byte) (s : State) : Host.Outcome State Fault Refusal :=
  .next ((s.setArith (addC s.A v s.C)).retire 2 2)

/-- ADC zero-page: 2 bytes, 3 cycles (R141). -/
def execAdcZp (z : Byte) (s : State) : Host.Outcome State Fault Refusal :=
  .next ((s.setArith (addC s.A (s.operandZp z) s.C)).retire 2 3)

/-- SBC immediate: 2 bytes, 2 cycles (R142). -/
def execSbcImm (v : Byte) (s : State) : Host.Outcome State Fault Refusal :=
  .next ((s.setArith (subC s.A v s.C)).retire 2 2)

/-- AND immediate: 2 bytes, 2 cycles (R143). -/
def execAndImm (v : Byte) (s : State) : Host.Outcome State Fault Refusal :=
  .next ((s.loadA (s.A &&& v)).retire 2 2)

/-- ORA immediate: 2 bytes, 2 cycles (R144). -/
def execOraImm (v : Byte) (s : State) : Host.Outcome State Fault Refusal :=
  .next ((s.loadA (s.A ||| v)).retire 2 2)

/-- EOR immediate: 2 bytes, 2 cycles (R145). -/
def execEorImm (v : Byte) (s : State) : Host.Outcome State Fault Refusal :=
  .next ((s.loadA (s.A ^^^ v)).retire 2 2)

/-- CMP immediate: 2 bytes, 2 cycles (R146). -/
def execCmpImm (v : Byte) (s : State) : Host.Outcome State Fault Refusal :=
  .next ((s.compare s.A v).retire 2 2)

/-- CMP zero-page: 2 bytes, 3 cycles (R147). -/
def execCmpZp (z : Byte) (s : State) : Host.Outcome State Fault Refusal :=
  .next ((s.compare s.A (s.operandZp z)).retire 2 3)

/-- CMP zero-page,X: 2 bytes, 4 cycles (R148). -/
def execCmpZpx (z : Byte) (s : State) : Host.Outcome State Fault Refusal :=
  .next ((s.compare s.A (s.operandZpx z)).retire 2 4)

/-- CPX immediate: 2 bytes, 2 cycles (R149). -/
def execCpxImm (v : Byte) (s : State) : Host.Outcome State Fault Refusal :=
  .next ((s.compare s.X v).retire 2 2)

/-- CPX zero-page: 2 bytes, 3 cycles (R150). -/
def execCpxZp (z : Byte) (s : State) : Host.Outcome State Fault Refusal :=
  .next ((s.compare s.X (s.operandZp z)).retire 2 3)

/-- CPY immediate: 2 bytes, 2 cycles (R151). -/
def execCpyImm (v : Byte) (s : State) : Host.Outcome State Fault Refusal :=
  .next ((s.compare s.Y v).retire 2 2)

/-- CPY zero-page: 2 bytes, 3 cycles (R152). -/
def execCpyZp (z : Byte) (s : State) : Host.Outcome State Fault Refusal :=
  .next ((s.compare s.Y (s.operandZp z)).retire 2 3)

end Sys2Proof.Machine
end

