-- ==== Sys2Proof/Machine/Control.lean ====
section
/-! DEFINITION. Jump, call, return and branches (spec/43_control_transfer.md R190 to R199). PC holds `call` when a meaning starts; log 5. -/

namespace Sys2Proof.Machine

/-- JMP absolute: 3 cycles (R190). -/
def execJmp (t : Addr) (s : State) : Host.Outcome State Fault Refusal :=
  .next (s.transfer t 3)

/-- The address JSR pushes: `call + 2`, the address of its own last byte (R191, 90_conflicts.md C1). -/
def State.returnAddr (s : State) : Addr := s.PC + 2

/-- JSR absolute: the high byte of the return address is pushed, then the low byte; 6 cycles (R191). -/
def execJsr (t : Addr) (s : State) : Host.Outcome State Fault Refusal :=
  .next (((s.push (highByte s.returnAddr)).push (lowByte s.returnAddr)).transfer t 6)

/-- RTS: the low byte is popped, then the high byte, and control goes to the address plus one; 6 cycles (R192). -/
def execRts (s : State) : Host.Outcome State Fault Refusal :=
  let (lo, s) := s.pop
  let (hi, s) := s.pop
  .next (s.transfer (joinBytes hi lo + 1) 6)

/-- What a branch costs: 2 not taken, 3 taken within the page of `call + 2`, 4 taken to another page (R193). -/
def branchCost (taken : Bool) (old target : Addr) : Nat :=
  if taken then (if highByte old != highByte target then 4 else 3) else 2

/-- `Branch(pred)`: the behaviour common to the six branches (R193). -/
def State.branch (s : State) (taken : Bool) (d : Byte) : State :=
  s.transfer (if taken then s.branchTarget d else s.afterBranch)
    (branchCost taken s.afterBranch (s.branchTarget d))

/-- BCC: branch if carry clear (R194). -/
def execBcc (d : Byte) (s : State) : Host.Outcome State Fault Refusal :=
  .next (s.branch (!s.C) d)

/-- BCS: branch if carry set (R195). -/
def execBcs (d : Byte) (s : State) : Host.Outcome State Fault Refusal :=
  .next (s.branch s.C d)

/-- BEQ: branch if zero (R196). -/
def execBeq (d : Byte) (s : State) : Host.Outcome State Fault Refusal :=
  .next (s.branch s.Z d)

/-- BNE: branch if not zero (R197). -/
def execBne (d : Byte) (s : State) : Host.Outcome State Fault Refusal :=
  .next (s.branch (!s.Z) d)

/-- BMI: branch if negative (R198). -/
def execBmi (d : Byte) (s : State) : Host.Outcome State Fault Refusal :=
  .next (s.branch s.N d)

/-- BPL: branch if N is clear (R199). -/
def execBpl (d : Byte) (s : State) : Host.Outcome State Fault Refusal :=
  .next (s.branch (!s.N) d)

end Sys2Proof.Machine
end

