-- ==== Sys2Proof/Machine/LoadStore.lean ====
section
/-! DEFINITION. Register loads and stores (spec/40_load_store.md R120 to R132). -/

namespace Sys2Proof.Machine

/-- LDA immediate: 2 bytes, 2 cycles (R120). -/
def execLdaImm (v : Byte) (s : State) : Host.Outcome State Fault Refusal :=
  .next ((s.loadA v).retire 2 2)

/-- LDA zero-page: 2 bytes, 3 cycles (R121). -/
def execLdaZp (z : Byte) (s : State) : Host.Outcome State Fault Refusal :=
  .next ((s.loadA (s.operandZp z)).retire 2 3)

/-- LDA zero-page,X: 2 bytes, 4 cycles (R122). -/
def execLdaZpx (z : Byte) (s : State) : Host.Outcome State Fault Refusal :=
  .next ((s.loadA (s.operandZpx z)).retire 2 4)

/-- LDA absolute: 3 bytes, 4 cycles (R123). -/
def execLdaAbs (addr : Addr) (s : State) : Host.Outcome State Fault Refusal :=
  .next ((s.loadA (s.operandAbs addr)).retire 3 4)

/-- LDX immediate: 2 bytes, 2 cycles (R124). -/
def execLdxImm (v : Byte) (s : State) : Host.Outcome State Fault Refusal :=
  .next ((s.loadX v).retire 2 2)

/-- LDX zero-page: 2 bytes, 3 cycles (R125). -/
def execLdxZp (z : Byte) (s : State) : Host.Outcome State Fault Refusal :=
  .next ((s.loadX (s.operandZp z)).retire 2 3)

/-- LDY immediate: 2 bytes, 2 cycles (R126). -/
def execLdyImm (v : Byte) (s : State) : Host.Outcome State Fault Refusal :=
  .next ((s.loadY v).retire 2 2)

/-- LDY zero-page: 2 bytes, 3 cycles (R127). -/
def execLdyZp (z : Byte) (s : State) : Host.Outcome State Fault Refusal :=
  .next ((s.loadY (s.operandZp z)).retire 2 3)

/-- STA zero-page: 2 bytes, 3 cycles (R128). -/
def execStaZp (z : Byte) (s : State) : Host.Outcome State Fault Refusal :=
  .next ((s.memWrite (s.eaZp z) s.A).retire 2 3)

/-- STA zero-page,X: 2 bytes, 4 cycles (R129). -/
def execStaZpx (z : Byte) (s : State) : Host.Outcome State Fault Refusal :=
  .next ((s.memWrite (s.eaZpx z) s.A).retire 2 4)

/-- STA absolute: 3 bytes, 4 cycles (R130). -/
def execStaAbs (addr : Addr) (s : State) : Host.Outcome State Fault Refusal :=
  .next ((s.memWrite (s.eaAbs addr) s.A).retire 3 4)

/-- STX zero-page: 2 bytes, 3 cycles (R131). -/
def execStxZp (z : Byte) (s : State) : Host.Outcome State Fault Refusal :=
  .next ((s.memWrite (s.eaZp z) s.X).retire 2 3)

/-- STY zero-page: 2 bytes, 3 cycles (R132). -/
def execStyZp (z : Byte) (s : State) : Host.Outcome State Fault Refusal :=
  .next ((s.memWrite (s.eaZp z) s.Y).retire 2 3)

end Sys2Proof.Machine
end

