-- ==== Sys2Proof/Machine/RegisterOps.lean ====
section
/-! DEFINITION. Increment, decrement, carry flag and transfers (spec/42_register_and_flag_ops.md R170 to R179). -/

namespace Sys2Proof.Machine

/-- INX: 1 byte, 2 cycles (R170). -/
def execInx (s : State) : Host.Outcome State Fault Refusal :=
  .next ((s.loadX (s.X + 1)).retire 1 2)

/-- INY: 1 byte, 2 cycles (R171). -/
def execIny (s : State) : Host.Outcome State Fault Refusal :=
  .next ((s.loadY (s.Y + 1)).retire 1 2)

/-- DEX: 1 byte, 2 cycles (R172). -/
def execDex (s : State) : Host.Outcome State Fault Refusal :=
  .next ((s.loadX (s.X - 1)).retire 1 2)

/-- DEY: 1 byte, 2 cycles (R173). -/
def execDey (s : State) : Host.Outcome State Fault Refusal :=
  .next ((s.loadY (s.Y - 1)).retire 1 2)

/-- CLC: 1 byte, 2 cycles (R174). -/
def execClc (s : State) : Host.Outcome State Fault Refusal :=
  .next ({ s with C := false }.retire 1 2)

/-- SEC: 1 byte, 2 cycles (R175). -/
def execSec (s : State) : Host.Outcome State Fault Refusal :=
  .next ({ s with C := true }.retire 1 2)

/-- TAX: 1 byte, 2 cycles (R176). -/
def execTax (s : State) : Host.Outcome State Fault Refusal :=
  .next ((s.loadX s.A).retire 1 2)

/-- TAY: 1 byte, 2 cycles (R177). -/
def execTay (s : State) : Host.Outcome State Fault Refusal :=
  .next ((s.loadY s.A).retire 1 2)

/-- TXA: 1 byte, 2 cycles (R178). -/
def execTxa (s : State) : Host.Outcome State Fault Refusal :=
  .next ((s.loadA s.X).retire 1 2)

/-- TYA: 1 byte, 2 cycles (R179). -/
def execTya (s : State) : Host.Outcome State Fault Refusal :=
  .next ((s.loadA s.Y).retire 1 2)

end Sys2Proof.Machine
end

