-- ==== Sys2Proof/Machine/System.lean ====
section
/-! DEFINITION. Halt, no-op and the opcodes outside the table (spec/44_system_halt_nop.md R220 to R222). -/

namespace Sys2Proof.Machine

/-- BRK: RUNNING to HALTED, at the open cost `BRK_CYCLES`; nothing is pushed and no vector is read (R220). -/
def execBrk (s : State) : Host.Outcome State Fault Refusal :=
  .next ({ s with running := false }.retire 1 Config.brkCycles)

/-- NOP: 1 byte, 2 cycles (R221). -/
def execNop (s : State) : Host.Outcome State Fault Refusal :=
  .next (s.retire 1 2)

/-- Any opcode byte outside the table: a 1-byte, 2-cycle no-op that leaves no other trace (R84, R222). -/
def execUnimplemented (_op : Byte) (s : State) : Host.Outcome State Fault Refusal :=
  .next (s.retire 1 2)

end Sys2Proof.Machine
end

