-- ==== Sys2Proof/Syntax.lean ====
section
/-! DEFINITION. The instruction set as syntax: one constructor per row of spec/opcode_table.json, and the mnemonics and
modes by which the Instruction Table and the assembler name those rows. -/

namespace Sys2Proof

/-- The 35 mnemonics of the Instruction Table (30_encoding.md R83, 45_assembler.md R238). -/
inductive Mnemonic where
  | lda | ldx | ldy | sta | stx | sty | adc | sbc | and
  | ora | eor | cmp | cpx | cpy | inx | iny | dex | dey
  | clc | sec | tax | tay | txa | tya | jmp | jsr | rts
  | bcc | bcs | beq | bne | bmi | bpl | brk | nop
  deriving DecidableEq, Repr

/-- The six formats of an instruction, which are its addressing modes (30_encoding.md R81). -/
inductive Mode where
  /-- no operand -/
  | imp
  /-- immediate, `#` -/
  | imm
  /-- zero-page -/
  | zp
  /-- zero-page indexed by X -/
  | zpx
  /-- absolute -/
  | abs
  /-- relative -/
  | rel
  deriving DecidableEq, Repr

/-- The Cycles cell of an Instruction Table row (30_encoding.md R83, R95). -/
inductive Cost where
  /-- a number of cycles -/
  | fixed (n : Nat)
  /-- a branch: the base cost, one amount more when taken, one more when the page is crossed (43_control_transfer.md R193) -/
  | branch (base taken pageCross : Nat)
  /-- the cell that reads "halts": the open parameter `BRK_CYCLES` (92_eei_decisions.md D6) -/
  | halts
  deriving DecidableEq, Repr

/-- One row of the Instruction Table: "a static, immutable mapping from (mnemonic, addressing mode) to (opcode byte,
encoded length, base cycle cost)" (00_scope.md R2). -/
structure Row where
  mnemonic : Mnemonic
  mode     : Mode
  opcode   : Byte
  bytes    : Nat
  cost     : Cost
  deriving DecidableEq, Repr

/-- The instructions, with their operand bytes as the instruction stream holds them (30_encoding.md R81): an immediate
byte `v`, a zero-page address `z`, a 16-bit address or target, a displacement `d`. Log 5. -/
inductive Instr where
  /-- LDA immediate, opcode A9 (R120) -/
  | ldaImm (v : Byte)
  /-- LDA zero-page, opcode A5 (R121) -/
  | ldaZp (z : Byte)
  /-- LDA zero-page,X, opcode B5 (R122) -/
  | ldaZpx (z : Byte)
  /-- LDA absolute, opcode AD (R123) -/
  | ldaAbs (addr : Addr)
  /-- LDX immediate, opcode A2 (R124) -/
  | ldxImm (v : Byte)
  /-- LDX zero-page, opcode A6 (R125) -/
  | ldxZp (z : Byte)
  /-- LDY immediate, opcode A0 (R126) -/
  | ldyImm (v : Byte)
  /-- LDY zero-page, opcode A4 (R127) -/
  | ldyZp (z : Byte)
  /-- STA zero-page, opcode 85 (R128) -/
  | staZp (z : Byte)
  /-- STA zero-page,X, opcode 95 (R129) -/
  | staZpx (z : Byte)
  /-- STA absolute, opcode 8D (R130) -/
  | staAbs (addr : Addr)
  /-- STX zero-page, opcode 86 (R131) -/
  | stxZp (z : Byte)
  /-- STY zero-page, opcode 84 (R132) -/
  | styZp (z : Byte)
  /-- ADC immediate, opcode 69 (R140) -/
  | adcImm (v : Byte)
  /-- ADC zero-page, opcode 65 (R141) -/
  | adcZp (z : Byte)
  /-- SBC immediate, opcode E9 (R142) -/
  | sbcImm (v : Byte)
  /-- AND immediate, opcode 29 (R143) -/
  | andImm (v : Byte)
  /-- ORA immediate, opcode 09 (R144) -/
  | oraImm (v : Byte)
  /-- EOR immediate, opcode 49 (R145) -/
  | eorImm (v : Byte)
  /-- CMP immediate, opcode C9 (R146) -/
  | cmpImm (v : Byte)
  /-- CMP zero-page, opcode C5 (R147) -/
  | cmpZp (z : Byte)
  /-- CMP zero-page,X, opcode D5 (R148) -/
  | cmpZpx (z : Byte)
  /-- CPX immediate, opcode E0 (R149) -/
  | cpxImm (v : Byte)
  /-- CPX zero-page, opcode E4 (R150) -/
  | cpxZp (z : Byte)
  /-- CPY immediate, opcode C0 (R151) -/
  | cpyImm (v : Byte)
  /-- CPY zero-page, opcode C4 (R152) -/
  | cpyZp (z : Byte)
  /-- INX implied, opcode E8 (R170) -/
  | inx
  /-- INY implied, opcode C8 (R171) -/
  | iny
  /-- DEX implied, opcode CA (R172) -/
  | dex
  /-- DEY implied, opcode 88 (R173) -/
  | dey
  /-- CLC implied, opcode 18 (R174) -/
  | clc
  /-- SEC implied, opcode 38 (R175) -/
  | sec
  /-- TAX implied, opcode AA (R176) -/
  | tax
  /-- TAY implied, opcode A8 (R177) -/
  | tay
  /-- TXA implied, opcode 8A (R178) -/
  | txa
  /-- TYA implied, opcode 98 (R179) -/
  | tya
  /-- JMP absolute, opcode 4C (R190) -/
  | jmp (t : Addr)
  /-- JSR absolute, opcode 20 (R191) -/
  | jsr (t : Addr)
  /-- RTS implied, opcode 60 (R192) -/
  | rts
  /-- BCC relative, opcode 90 (R194) -/
  | bcc (d : Byte)
  /-- BCS relative, opcode B0 (R195) -/
  | bcs (d : Byte)
  /-- BEQ relative, opcode F0 (R196) -/
  | beq (d : Byte)
  /-- BNE relative, opcode D0 (R197) -/
  | bne (d : Byte)
  /-- BMI relative, opcode 30 (R198) -/
  | bmi (d : Byte)
  /-- BPL relative, opcode 10 (R199) -/
  | bpl (d : Byte)
  /-- BRK implied, opcode 00 (R220) -/
  | brk
  /-- NOP implied, opcode EA (R221) -/
  | nop
  /-- The catch-all row: any opcode byte that is none of the 47 above (R84, R222). Log 8. -/
  | unimplemented (op : Byte)
  deriving DecidableEq, Repr

end Sys2Proof
end

