-- ==== Sys2Proof/Machine/Dispatch.lean ====
section
/-! DEFINITION. The dispatch: one direct call of a meaning for each row of spec/opcode_table.json (30_encoding.md R99). -/

namespace Sys2Proof.Machine

/-- The whole transition of an instruction that starts at PC: operands, effect, PC, cycles and steps. Log 5. -/
def exec (i : Instr) (s : State) : Host.Outcome State Fault Refusal :=
  match i with
  | .ldaImm v => Sys2Proof.Machine.execLdaImm v s
  | .ldaZp z => Sys2Proof.Machine.execLdaZp z s
  | .ldaZpx z => Sys2Proof.Machine.execLdaZpx z s
  | .ldaAbs addr => Sys2Proof.Machine.execLdaAbs addr s
  | .ldxImm v => Sys2Proof.Machine.execLdxImm v s
  | .ldxZp z => Sys2Proof.Machine.execLdxZp z s
  | .ldyImm v => Sys2Proof.Machine.execLdyImm v s
  | .ldyZp z => Sys2Proof.Machine.execLdyZp z s
  | .staZp z => Sys2Proof.Machine.execStaZp z s
  | .staZpx z => Sys2Proof.Machine.execStaZpx z s
  | .staAbs addr => Sys2Proof.Machine.execStaAbs addr s
  | .stxZp z => Sys2Proof.Machine.execStxZp z s
  | .styZp z => Sys2Proof.Machine.execStyZp z s
  | .adcImm v => Sys2Proof.Machine.execAdcImm v s
  | .adcZp z => Sys2Proof.Machine.execAdcZp z s
  | .sbcImm v => Sys2Proof.Machine.execSbcImm v s
  | .andImm v => Sys2Proof.Machine.execAndImm v s
  | .oraImm v => Sys2Proof.Machine.execOraImm v s
  | .eorImm v => Sys2Proof.Machine.execEorImm v s
  | .cmpImm v => Sys2Proof.Machine.execCmpImm v s
  | .cmpZp z => Sys2Proof.Machine.execCmpZp z s
  | .cmpZpx z => Sys2Proof.Machine.execCmpZpx z s
  | .cpxImm v => Sys2Proof.Machine.execCpxImm v s
  | .cpxZp z => Sys2Proof.Machine.execCpxZp z s
  | .cpyImm v => Sys2Proof.Machine.execCpyImm v s
  | .cpyZp z => Sys2Proof.Machine.execCpyZp z s
  | .inx => Sys2Proof.Machine.execInx s
  | .iny => Sys2Proof.Machine.execIny s
  | .dex => Sys2Proof.Machine.execDex s
  | .dey => Sys2Proof.Machine.execDey s
  | .clc => Sys2Proof.Machine.execClc s
  | .sec => Sys2Proof.Machine.execSec s
  | .tax => Sys2Proof.Machine.execTax s
  | .tay => Sys2Proof.Machine.execTay s
  | .txa => Sys2Proof.Machine.execTxa s
  | .tya => Sys2Proof.Machine.execTya s
  | .jmp t => Sys2Proof.Machine.execJmp t s
  | .jsr t => Sys2Proof.Machine.execJsr t s
  | .rts => Sys2Proof.Machine.execRts s
  | .bcc d => Sys2Proof.Machine.execBcc d s
  | .bcs d => Sys2Proof.Machine.execBcs d s
  | .beq d => Sys2Proof.Machine.execBeq d s
  | .bne d => Sys2Proof.Machine.execBne d s
  | .bmi d => Sys2Proof.Machine.execBmi d s
  | .bpl d => Sys2Proof.Machine.execBpl d s
  | .brk => Sys2Proof.Machine.execBrk s
  | .nop => Sys2Proof.Machine.execNop s
  | .unimplemented op => Sys2Proof.Machine.execUnimplemented op s

end Sys2Proof.Machine
end

