-- ==== Sys2Proof/Machine/InstructionTable.lean ====
section
/-! DEFINITION. The Instruction Table, the single structure from which the encoder, the decoder and the assembler read
(spec/00_scope.md R3, 30_encoding.md R83). -/

namespace Sys2Proof

/-- Loads, stores: rows 1 to 13 of 30_encoding.md R83. -/
def loadStoreRows : List Row := [
  ⟨.lda, .imm, 0xA9, 2, .fixed 2⟩,
  ⟨.lda, .zp, 0xA5, 2, .fixed 3⟩,
  ⟨.lda, .zpx, 0xB5, 2, .fixed 4⟩,
  ⟨.lda, .abs, 0xAD, 3, .fixed 4⟩,
  ⟨.ldx, .imm, 0xA2, 2, .fixed 2⟩,
  ⟨.ldx, .zp, 0xA6, 2, .fixed 3⟩,
  ⟨.ldy, .imm, 0xA0, 2, .fixed 2⟩,
  ⟨.ldy, .zp, 0xA4, 2, .fixed 3⟩,
  ⟨.sta, .zp, 0x85, 2, .fixed 3⟩,
  ⟨.sta, .zpx, 0x95, 2, .fixed 4⟩,
  ⟨.sta, .abs, 0x8D, 3, .fixed 4⟩,
  ⟨.stx, .zp, 0x86, 2, .fixed 3⟩,
  ⟨.sty, .zp, 0x84, 2, .fixed 3⟩]

/-- Arithmetic, logic, compare: rows 14 to 26. -/
def arithmeticRows : List Row := [
  ⟨.adc, .imm, 0x69, 2, .fixed 2⟩,
  ⟨.adc, .zp, 0x65, 2, .fixed 3⟩,
  ⟨.sbc, .imm, 0xE9, 2, .fixed 2⟩,
  ⟨.and, .imm, 0x29, 2, .fixed 2⟩,
  ⟨.ora, .imm, 0x09, 2, .fixed 2⟩,
  ⟨.eor, .imm, 0x49, 2, .fixed 2⟩,
  ⟨.cmp, .imm, 0xC9, 2, .fixed 2⟩,
  ⟨.cmp, .zp, 0xC5, 2, .fixed 3⟩,
  ⟨.cmp, .zpx, 0xD5, 2, .fixed 4⟩,
  ⟨.cpx, .imm, 0xE0, 2, .fixed 2⟩,
  ⟨.cpx, .zp, 0xE4, 2, .fixed 3⟩,
  ⟨.cpy, .imm, 0xC0, 2, .fixed 2⟩,
  ⟨.cpy, .zp, 0xC4, 2, .fixed 3⟩]

/-- Register and flag instructions: rows 27 to 36. -/
def registerRows : List Row := [
  ⟨.inx, .imp, 0xE8, 1, .fixed 2⟩,
  ⟨.iny, .imp, 0xC8, 1, .fixed 2⟩,
  ⟨.dex, .imp, 0xCA, 1, .fixed 2⟩,
  ⟨.dey, .imp, 0x88, 1, .fixed 2⟩,
  ⟨.clc, .imp, 0x18, 1, .fixed 2⟩,
  ⟨.sec, .imp, 0x38, 1, .fixed 2⟩,
  ⟨.tax, .imp, 0xAA, 1, .fixed 2⟩,
  ⟨.tay, .imp, 0xA8, 1, .fixed 2⟩,
  ⟨.txa, .imp, 0x8A, 1, .fixed 2⟩,
  ⟨.tya, .imp, 0x98, 1, .fixed 2⟩]

/-- Control transfer, halt, no-op: rows 37 to 47. -/
def controlRows : List Row := [
  ⟨.jmp, .abs, 0x4C, 3, .fixed 3⟩,
  ⟨.jsr, .abs, 0x20, 3, .fixed 6⟩,
  ⟨.rts, .imp, 0x60, 1, .fixed 6⟩,
  ⟨.bcc, .rel, 0x90, 2, .branch 2 1 1⟩,
  ⟨.bcs, .rel, 0xB0, 2, .branch 2 1 1⟩,
  ⟨.beq, .rel, 0xF0, 2, .branch 2 1 1⟩,
  ⟨.bne, .rel, 0xD0, 2, .branch 2 1 1⟩,
  ⟨.bmi, .rel, 0x30, 2, .branch 2 1 1⟩,
  ⟨.bpl, .rel, 0x10, 2, .branch 2 1 1⟩,
  ⟨.brk, .imp, 0x00, 1, .halts⟩,
  ⟨.nop, .imp, 0xEA, 1, .fixed 2⟩]

/-- The Instruction Table, in the order of 30_encoding.md R83. -/
def instructionTable : List Row := loadStoreRows ++ arithmeticRows ++ registerRows ++ controlRows

/-- The decoder's lookup: the row of an opcode byte, none for the 209 bytes of the catch-all (R82, R84). -/
def rowOfOpcode (op : Byte) : Option Row := instructionTable.find? (fun r => r.opcode == op)

/-- The encoder's lookup: the row of a (mnemonic, mode) pair, none for a form the hardware lacks (R83, R94). -/
def rowOfForm (mn : Mnemonic) (mode : Mode) : Option Row :=
  instructionTable.find? (fun r => r.mnemonic == mn && r.mode == mode)

/-- The length in bytes that the opcode byte alone fixes: the Bytes column, 1 for the catch-all (R80, R84). -/
def lengthOfOpcode (op : Byte) : Nat :=
  match rowOfOpcode op with
  | some r => r.bytes
  | none => 1

/-- The number of cycles of a row when no branch is taken; what a taken branch adds is 43_control_transfer.md R193's
own (R95). -/
def Cost.base (brkCycles : Nat) : Cost → Nat
  | .fixed n => n
  | .branch base _ _ => base
  | .halts => brkCycles

end Sys2Proof
end

