-- ==== Sys2Proof/WellFormed.lean ====
section
/-! DEFINITION. Which terms of `Instr` stand for instructions of the hardware. -/

namespace Sys2Proof

/-- Every operand field has its own width, so the one check is that the catch-all constructor carries none of the 47
opcodes of the Instruction Table (30_encoding.md R82, R84). Log 8. -/
def Instr.wf : Instr → Bool
  | .ldaImm _ | .ldaZp _ | .ldaZpx _ | .ldaAbs _ | .ldxImm _ | .ldxZp _ | .ldyImm _
  | .ldyZp _ | .staZp _ | .staZpx _ | .staAbs _ | .stxZp _ | .styZp _ | .adcImm _
  | .adcZp _ | .sbcImm _ | .andImm _ | .oraImm _ | .eorImm _ | .cmpImm _ | .cmpZp _
  | .cmpZpx _ | .cpxImm _ | .cpxZp _ | .cpyImm _ | .cpyZp _ | .inx | .iny
  | .dex | .dey | .clc | .sec | .tax | .tay | .txa
  | .tya | .jmp _ | .jsr _ | .rts | .bcc _ | .bcs _ | .beq _
  | .bne _ | .bmi _ | .bpl _ | .brk | .nop => true
  | .unimplemented op => (rowOfOpcode op).isNone

end Sys2Proof
end

