-- ==== Sys2Proof/Decode.lean ====
section
/-! DEFINITION. From bytes to an instruction, total on any bytes, and after it the encoder; both read the one Instruction
Table (spec/30_encoding.md R80 to R92). -/

namespace Sys2Proof

/-- The instruction of a table form, from the bytes after the opcode; none for a pair that is no row of the table
(30_encoding.md R81, R94). An absolute operand is little-endian (20_memory.md R53). -/
def Instr.ofForm (mn : Mnemonic) (mode : Mode) (b1 b2 : Byte) : Option Instr :=
  match mn, mode with
  | .lda, .imm => some (.ldaImm b1)
  | .lda, .zp => some (.ldaZp b1)
  | .lda, .zpx => some (.ldaZpx b1)
  | .lda, .abs => some (.ldaAbs (joinBytes b2 b1))
  | .ldx, .imm => some (.ldxImm b1)
  | .ldx, .zp => some (.ldxZp b1)
  | .ldy, .imm => some (.ldyImm b1)
  | .ldy, .zp => some (.ldyZp b1)
  | .sta, .zp => some (.staZp b1)
  | .sta, .zpx => some (.staZpx b1)
  | .sta, .abs => some (.staAbs (joinBytes b2 b1))
  | .stx, .zp => some (.stxZp b1)
  | .sty, .zp => some (.styZp b1)
  | .adc, .imm => some (.adcImm b1)
  | .adc, .zp => some (.adcZp b1)
  | .sbc, .imm => some (.sbcImm b1)
  | .and, .imm => some (.andImm b1)
  | .ora, .imm => some (.oraImm b1)
  | .eor, .imm => some (.eorImm b1)
  | .cmp, .imm => some (.cmpImm b1)
  | .cmp, .zp => some (.cmpZp b1)
  | .cmp, .zpx => some (.cmpZpx b1)
  | .cpx, .imm => some (.cpxImm b1)
  | .cpx, .zp => some (.cpxZp b1)
  | .cpy, .imm => some (.cpyImm b1)
  | .cpy, .zp => some (.cpyZp b1)
  | .inx, .imp => some (.inx)
  | .iny, .imp => some (.iny)
  | .dex, .imp => some (.dex)
  | .dey, .imp => some (.dey)
  | .clc, .imp => some (.clc)
  | .sec, .imp => some (.sec)
  | .tax, .imp => some (.tax)
  | .tay, .imp => some (.tay)
  | .txa, .imp => some (.txa)
  | .tya, .imp => some (.tya)
  | .jmp, .abs => some (.jmp (joinBytes b2 b1))
  | .jsr, .abs => some (.jsr (joinBytes b2 b1))
  | .rts, .imp => some (.rts)
  | .bcc, .rel => some (.bcc b1)
  | .bcs, .rel => some (.bcs b1)
  | .beq, .rel => some (.beq b1)
  | .bne, .rel => some (.bne b1)
  | .bmi, .rel => some (.bmi b1)
  | .bpl, .rel => some (.bpl b1)
  | .brk, .imp => some (.brk)
  | .nop, .imp => some (.nop)
  | _, _ => none

/-- `Decode` of an opcode byte with the two bytes that follow it, of which the opcode uses 0, 1 or 2: the row's
instruction, or the catch-all (30_encoding.md R82, R84). -/
def decodeInstr (op b1 b2 : Byte) : Instr :=
  match rowOfOpcode op with
  | none => .unimplemented op
  | some r =>
    match Instr.ofForm r.mnemonic r.mode b1 b2 with
    | some i => i
    | none => .unimplemented op

/-- Why a byte list holds no whole instruction. No opcode byte is rejected (30_encoding.md R84). Log 7. -/
inductive DecodeError where
  /-- The list is empty. Raised by `decode`; safe. -/
  | noBytes
  /-- The list ends before the opcode's operand bytes do. Raised by `decode`; safe. -/
  | truncated (op : Byte)
  deriving DecidableEq, Repr

/-- The first instruction of a byte list, and the rest of the list. -/
def decode (bs : List Byte) : Except DecodeError (Instr × List Byte) :=
  match bs with
  | [] => .error .noBytes
  | op :: rest =>
    match lengthOfOpcode op, rest with
    | 1, rest => .ok (decodeInstr op 0 0, rest)
    | 2, b1 :: rest => .ok (decodeInstr op b1 0, rest)
    | 3, b1 :: b2 :: rest => .ok (decodeInstr op b1 b2, rest)
    | _, _ => .error (.truncated op)

/-- The opcode byte of a table form followed by its operand bytes (30_encoding.md R92). -/
def encodeForm (mn : Mnemonic) (mode : Mode) (operands : List Byte) : List Byte :=
  ((rowOfForm mn mode).map Row.opcode).toList ++ operands

/-- The bytes of an instruction, in memory order (30_encoding.md R81). -/
def encode : Instr → List Byte
  | .ldaImm v => encodeForm .lda .imm [v]
  | .ldaZp z => encodeForm .lda .zp [z]
  | .ldaZpx z => encodeForm .lda .zpx [z]
  | .ldaAbs addr => encodeForm .lda .abs [lowByte addr, highByte addr]
  | .ldxImm v => encodeForm .ldx .imm [v]
  | .ldxZp z => encodeForm .ldx .zp [z]
  | .ldyImm v => encodeForm .ldy .imm [v]
  | .ldyZp z => encodeForm .ldy .zp [z]
  | .staZp z => encodeForm .sta .zp [z]
  | .staZpx z => encodeForm .sta .zpx [z]
  | .staAbs addr => encodeForm .sta .abs [lowByte addr, highByte addr]
  | .stxZp z => encodeForm .stx .zp [z]
  | .styZp z => encodeForm .sty .zp [z]
  | .adcImm v => encodeForm .adc .imm [v]
  | .adcZp z => encodeForm .adc .zp [z]
  | .sbcImm v => encodeForm .sbc .imm [v]
  | .andImm v => encodeForm .and .imm [v]
  | .oraImm v => encodeForm .ora .imm [v]
  | .eorImm v => encodeForm .eor .imm [v]
  | .cmpImm v => encodeForm .cmp .imm [v]
  | .cmpZp z => encodeForm .cmp .zp [z]
  | .cmpZpx z => encodeForm .cmp .zpx [z]
  | .cpxImm v => encodeForm .cpx .imm [v]
  | .cpxZp z => encodeForm .cpx .zp [z]
  | .cpyImm v => encodeForm .cpy .imm [v]
  | .cpyZp z => encodeForm .cpy .zp [z]
  | .inx => encodeForm .inx .imp []
  | .iny => encodeForm .iny .imp []
  | .dex => encodeForm .dex .imp []
  | .dey => encodeForm .dey .imp []
  | .clc => encodeForm .clc .imp []
  | .sec => encodeForm .sec .imp []
  | .tax => encodeForm .tax .imp []
  | .tay => encodeForm .tay .imp []
  | .txa => encodeForm .txa .imp []
  | .tya => encodeForm .tya .imp []
  | .jmp t => encodeForm .jmp .abs [lowByte t, highByte t]
  | .jsr t => encodeForm .jsr .abs [lowByte t, highByte t]
  | .rts => encodeForm .rts .imp []
  | .bcc d => encodeForm .bcc .rel [d]
  | .bcs d => encodeForm .bcs .rel [d]
  | .beq d => encodeForm .beq .rel [d]
  | .bne d => encodeForm .bne .rel [d]
  | .bmi d => encodeForm .bmi .rel [d]
  | .bpl d => encodeForm .bpl .rel [d]
  | .brk => encodeForm .brk .imp []
  | .nop => encodeForm .nop .imp []
  | .unimplemented op => [op]

/-- Byte `k` of a word whose bit 0 is the least significant bit of the instruction's first byte. -/
def tableByte (w k : Nat) : Byte := BitVec.ofNat 8 (w / 256 ^ k)

/-- The instruction the decoder reads from a word numbered as spec/opcode_table.json numbers it: the first byte is bits
7..0, and every bit from `nbits` up is 0. -/
def decodeTableWord (nbits w : Nat) : Option Instr :=
  let word := w % 2 ^ nbits
  match decode [tableByte word 0, tableByte word 1, tableByte word 2] with
  | .ok (i, _) => some i
  | .error _ => none

end Sys2Proof
end

