-- ==== Sys2Proof/Machine/Fetch.lean ====
section
/-! DEFINITION. Where and how an instruction's bytes are fetched (spec/20_memory.md R57, 30_encoding.md R80). -/

namespace Sys2Proof.Machine.State

/-- The three bytes from PC up, modulo 65536: the longest instruction. Reading the bytes an instruction does not use has
no effect (20_memory.md R50). Log 5. -/
def fetchBytes (s : State) : List Byte := [s.memRead s.PC, s.memRead (s.PC + 1), s.memRead (s.PC + 2)]

/-- The instruction at PC (30_encoding.md R82: decoding depends on these bytes alone). -/
def fetchInstr (s : State) : Instr :=
  decodeInstr (s.memRead s.PC) (s.memRead (s.PC + 1)) (s.memRead (s.PC + 2))

/-- The three bytes of a word, its lowest byte first, stored from PC up, modulo 65536. -/
def writeInstr (s : State) (w : Nat) : State :=
  ((s.memWrite s.PC (tableByte w 0)).memWrite (s.PC + 1) (tableByte w 1)).memWrite (s.PC + 2) (tableByte w 2)

end Sys2Proof.Machine.State
end

