-- ==== Sys2Proof/Machine/Step.lean ====
section
/-! DEFINITION. One step: fetch, decode, execute (spec/30_encoding.md R97). -/

namespace Sys2Proof.Machine

/-- `step()`. HALTED, it changes nothing; RUNNING, it executes the instruction at PC. The Boolean that `step()` returns
is the `running` of the next state (R97); `State.stepCommand` gives it. Log 13. -/
def step (s : State) : Host.Outcome State Fault Refusal :=
  if s.running then exec s.fetchInstr s else .next s

/-- `s` with the instruction of the word `w`, numbered as spec/opcode_table.json numbers it, stored where the next step
fetches, and RUNNING, without which no step fetches. Log 4. -/
def State.withFetchWord (s : State) (nbits w : Nat) : State :=
  { s.writeInstr (w % 2 ^ nbits) with running := true }

end Sys2Proof.Machine
end

