-- ==== Sys2Proof/Machine/Assembler.lean ====
section
/-! DEFINITION. The two-pass assembler, a pure function from source lines to bytes and an address-to-line map
(spec/45_assembler.md R230 to R262). A source line is a list of characters. Log 9. -/

namespace Sys2Proof.Machine

/-- One line of source text, or a part of one. -/
abbrev Text := List Char

/-! ## Characters and words of the source -/

/-- Space and tab, the whitespace of R236. -/
def isBlank (c : Char) : Bool := c == ' ' || c == '\t'

def isDecDigit (c : Char) : Bool := '0' ≤ c && c ≤ '9'

def isUpperHex (c : Char) : Bool := isDecDigit c || ('A' ≤ c && c ≤ 'F')

/-- The upper case of an ASCII letter; other characters stay as they are (R236). Log 9. -/
def upperChar (c : Char) : Char := if 'a' ≤ c ∧ c ≤ 'z' then Char.ofNat (c.toNat - 32) else c

/-- `[A-Z_]`, which begins an identifier (R237). -/
def isIdentStart (c : Char) : Bool := ('A' ≤ c && c ≤ 'Z') || c == '_'

/-- `[A-Z0-9_]`, which continues one (R237). -/
def isIdentChar (c : Char) : Bool := isIdentStart c || isDecDigit c

/-- An identifier, after upper-casing: `[A-Z_][A-Z0-9_]*` (R237). -/
def isIdent : Text → Bool
  | [] => false
  | c :: cs => isIdentStart c && cs.all isIdentChar

/-- Delete leading and trailing whitespace (R236). -/
def trim (t : Text) : Text := ((t.dropWhile isBlank).reverse.dropWhile isBlank).reverse

/-- Replace every run of whitespace by one space (R236). -/
def squeeze : Text → Text
  | [] => []
  | c :: cs =>
    if isBlank c then
      match squeeze cs with
      | ' ' :: rest => ' ' :: rest
      | rest => ' ' :: rest
    else c :: squeeze cs

/-- `Prepare`: comment stripped, trimmed, upper-cased, runs of whitespace replaced by one space (R236). -/
def prepare (line : Text) : Text := squeeze ((trim (line.takeWhile (· != ';'))).map upperChar)

/-- `IDENT ":" REST` with REST trimmed, or the whole line when no label leads it (R237). -/
def splitLabel (t : Text) : Option Text × Text :=
  let name := t.takeWhile isIdentChar
  match t.drop name.length with
  | ':' :: rest => if isIdent name then (some name, trim rest) else (none, t)
  | _ => (none, t)

/-- `SplitInstruction`: the mnemonic up to the first space, and the text after it (R238). -/
def splitInstruction (t : Text) : Text × Text :=
  (t.takeWhile (· != ' '), (t.dropWhile (· != ' ')).drop 1)

/-! ## Values -/

/-- The value of a digit character in base 16. -/
def digitValue (c : Char) : Nat := if isDecDigit c then c.toNat - '0'.toNat else c.toNat - 'A'.toNat + 10

/-- The number that digits write in a base, most significant first. -/
def numberIn (base : Nat) (digits : Text) : Nat := digits.foldl (fun n c => n * base + digitValue c) 0

/-- Whether a value text is a literal: it begins with `$` or a decimal digit (R243). -/
def isLiteral : Text → Bool
  | [] => false
  | c :: _ => c == '$' || isDecDigit c

/-- `ParseLiteral`: all of the text is a number, or the value is 0 (R243). -/
def parseLiteral : Text → Nat
  | [] => 0
  | c :: cs =>
    if c == '$' then (if !cs.isEmpty && cs.all isUpperHex then numberIn 16 cs else 0)
    else if (c :: cs).all isDecDigit then numberIn 10 (c :: cs) else 0

/-- Labels and their addresses, latest first (R232). -/
abbrev Symbols := List (Text × Nat)

/-- A label's address, 0 when it is not defined (R232, R257). -/
def Symbols.value (symbols : Symbols) (name : Text) : Nat := (symbols.lookup name).getD 0

/-- `Resolve(s, symbols)` (R244). -/
def resolve (symbols : Symbols) (s : Text) : Except AsmRefusal Nat :=
  if isLiteral s then .ok (parseLiteral s)
  else if isIdent s then .ok (Symbols.value symbols s)
  else .error .badValue

/-! ## Mnemonics and modes -/

/-- The mnemonics as the source text writes them (R238). -/
def mnemonicNames : List (Mnemonic × String) := [
  (.lda, "LDA"), (.ldx, "LDX"), (.ldy, "LDY"), (.sta, "STA"), (.stx, "STX"), (.sty, "STY"),
  (.adc, "ADC"), (.sbc, "SBC"), (.and, "AND"), (.ora, "ORA"), (.eor, "EOR"),
  (.cmp, "CMP"), (.cpx, "CPX"), (.cpy, "CPY"),
  (.inx, "INX"), (.iny, "INY"), (.dex, "DEX"), (.dey, "DEY"), (.clc, "CLC"), (.sec, "SEC"),
  (.tax, "TAX"), (.tay, "TAY"), (.txa, "TXA"), (.tya, "TYA"),
  (.jmp, "JMP"), (.jsr, "JSR"), (.rts, "RTS"),
  (.bcc, "BCC"), (.bcs, "BCS"), (.beq, "BEQ"), (.bne, "BNE"), (.bmi, "BMI"), (.bpl, "BPL"),
  (.brk, "BRK"), (.nop, "NOP")]

def mnemonicOfText (t : Text) : Option Mnemonic :=
  (mnemonicNames.find? (fun p => p.2.toList == t)).map Prod.fst

/-- The four mnemonic classes of pass 1 (R239). -/
inductive MnemonicClass where
  /-- fixed 1-byte, no operand -/
  | noOperand
  /-- fixed 3-byte absolute jump and call -/
  | jump
  /-- fixed 2-byte conditional branch -/
  | branch
  /-- variable-length, operand-bearing -/
  | variable
  deriving DecidableEq, Repr

/-- The class of each mnemonic (R239). -/
def mnemonicClass : Mnemonic → MnemonicClass
  | .brk | .nop | .clc | .sec | .inx | .iny | .dex | .dey | .tax | .tay | .txa | .tya | .rts => .noOperand
  | .jmp | .jsr => .jump
  | .bcc | .bcs | .beq | .bne | .bmi | .bpl => .branch
  | .lda | .ldx | .ldy | .sta | .stx | .sty | .adc | .sbc | .and | .ora | .eor | .cmp | .cpx | .cpy => .variable

/-- `SizingValue` (R241): a label reads as 0. -/
def sizingValue (op : Text) : Nat := if isLiteral op then parseLiteral op else 0

/-- The operand without a trailing `,X`, if it has one (R241). -/
def stripIndexed (op : Text) : Option Text :=
  match op.reverse with
  | 'X' :: ',' :: rest => some rest.reverse
  | _ => none

/-- The mode and value text of a variable-length mnemonic, from the operand text alone (R241, R255). -/
def selectVariableMode (op : Text) : Mode × Text :=
  match op with
  | '#' :: value => (.imm, value)
  | _ =>
    match stripIndexed op with
    | some value => (.zpx, value)
    | none => if sizingValue op < 256 then (.zp, op) else (.abs, op)

/-- `SelectMode` (R241), after the checks of R261 on the operand's shape. -/
def selectMode (mn : Mnemonic) (op : Text) : Except AsmRefusal (Mode × Text) :=
  if op.contains ' ' then .error .spaceInOperand
  else
    match mnemonicClass mn with
    | .noOperand => if op.isEmpty then .ok (.imp, []) else .error .unexpectedOperand
    | .jump => if op.isEmpty then .error .missingOperand else .ok (.abs, op)
    | .branch => if op.isEmpty then .error .missingOperand else .ok (.rel, op)
    | .variable =>
      let (mode, value) := selectVariableMode op
      if value.isEmpty then .error .missingOperand else .ok (mode, value)

/-- The row and the value text of an instruction text: what both passes derive from it (R240, R245). -/
def rowOfText (t : Text) : Except AsmRefusal (Row × Text) :=
  let (name, op) := splitInstruction t
  match mnemonicOfText name with
  | none => .error .unknownMnemonic
  | some mn =>
    match selectMode mn op with
    | .error e => .error e
    | .ok (mode, value) =>
      match rowOfForm mn mode with
      | none => .error .noSuchForm
      | some row => .ok (row, value)

/-! ## Pass 1 -/

/-- An instruction record (R233). -/
structure Record where
  lineIndex : Nat
  rawText   : Text
  address   : Nat
  text      : Text
  deriving DecidableEq, Repr

/-- What pass 1 has built so far: labels, records in source order, and the running address (R240). -/
structure Layout where
  symbols : Symbols
  records : List Record
  addr    : Nat
  deriving DecidableEq, Repr

/-- The labels and records before the first line (R240). -/
def Layout.start : Layout := { symbols := [], records := [], addr := Config.origin }

/-- Bind a label to the running address; a second definition is refused (R237, R261). -/
def Layout.bind (l : Layout) (label : Option Text) : Except AsmRefusal Layout :=
  match label with
  | none => .ok l
  | some name =>
    if (l.symbols.lookup name).isSome then .error .duplicateLabel
    else .ok { l with symbols := (name, l.addr) :: l.symbols }

/-- Record the instruction text of a line and advance the running address by its length (R240). -/
def Layout.place (l : Layout) (lineIndex : Nat) (rawText text : Text) : Except AsmRefusal Layout :=
  if text.contains ':' then .error .labelForm
  else
    match rowOfText text with
    | .error e => .error e
    | .ok (row, _) =>
      if l.addr + row.bytes > Config.memorySize then .error .programTooLarge
      else .ok { l with
        records := l.records ++ [{ lineIndex, rawText, address := l.addr, text }]
        addr := l.addr + row.bytes }

/-- One line of pass 1 (R240). -/
def Layout.line (l : Layout) (lineIndex : Nat) (rawText : Text) : Except AsmRefusal Layout :=
  let t := prepare rawText
  if t.isEmpty then .ok l
  else
    let (label, rest) := splitLabel t
    match l.bind label with
    | .error e => .error e
    | .ok l => if rest.isEmpty then .ok l else l.place lineIndex rawText rest

/-- Pass 1 over the lines from number `lineIndex` on (R240). -/
def Layout.lines (l : Layout) (lineIndex : Nat) : List Text → Except AsmRefusal Layout
  | [] => .ok l
  | t :: ts =>
    match l.line lineIndex t with
    | .error e => .error e
    | .ok l => l.lines (lineIndex + 1) ts

/-- Pass 1 (R240); lines are counted from 0 (R233). -/
def pass1 (src : List Text) : Except AsmRefusal Layout := Layout.start.lines 0 src

/-! ## Pass 2 -/

/-- The displacement byte `(T - (a + 2)) mod 256` (R253). -/
def displacement (target address : Nat) : Byte := BitVec.ofInt 8 (target - (address + 2))

/-- The operand bytes of a mode for a value, in an instruction at an address (R250 to R254). -/
def operandBytes (mode : Mode) (address value : Nat) : List Byte :=
  match mode with
  | .imp => []
  | .imm | .zp | .zpx => [BitVec.ofNat 8 value]
  | .rel => [displacement value address]
  | .abs => [lowByte (BitVec.ofNat 16 value), highByte (BitVec.ofNat 16 value)]

/-- The value of an instruction's value text; a mode without operand has none (R245, R250). -/
def operandValue (symbols : Symbols) (mode : Mode) (text : Text) : Except AsmRefusal Nat :=
  match mode with
  | .imp => .ok 0
  | .imm | .zp | .zpx | .abs | .rel => resolve symbols text

/-- The bytes of one record (R245). -/
def Record.emit (symbols : Symbols) (r : Record) : Except AsmRefusal (List Byte) :=
  match rowOfText r.text with
  | .error e => .error e
  | .ok (row, valueText) =>
    match operandValue symbols row.mode valueText with
    | .error e => .error e
    | .ok value => .ok (row.opcode :: operandBytes row.mode r.address value)

/-- What `assemble` returns: the bytes from the origin on, and the line index of each instruction's first address, in
source order (R230, R234, R235). -/
structure Assembled where
  bytecode      : List Byte
  addressToLine : List (Nat × Nat)
  deriving DecidableEq, Repr

/-- Pass 2 (R245). -/
def pass2 (symbols : Symbols) : List Record → Except AsmRefusal Assembled
  | [] => .ok { bytecode := [], addressToLine := [] }
  | r :: rs =>
    match r.emit symbols with
    | .error e => .error e
    | .ok bytes =>
      match pass2 symbols rs with
      | .error e => .error e
      | .ok out => .ok {
          bytecode := bytes ++ out.bytecode
          addressToLine := (r.address, r.lineIndex) :: out.addressToLine }

/-- `assemble(sourceLines)` (R230). -/
def assemble (src : List Text) : Except AsmRefusal Assembled :=
  match pass1 src with
  | .error e => .error e
  | .ok l => pass2 l.symbols l.records

/-- The line index of an address: "last write wins", and no two records share an address (R235). -/
def Assembled.lineOf (out : Assembled) (address : Nat) : Option Nat := out.addressToLine.reverse.lookup address

end Sys2Proof.Machine
end

