-- ==== Sys2Proof/Machine/Commands.lean ====
section
/-! DEFINITION. The host's five commands, each one transaction between steps (spec/00_scope.md R7, R8;
70_reset_and_hazards.md R330 to R333; 60_exceptions.md R310, R311). -/

namespace Sys2Proof.Machine

/-- `reset()`: registers, flags, counters and run state as after construction; memory as it is (R331). -/
def State.resetCommand (s : State) : State := { State.reset with mem := s.mem }

/-- The effect of `load(bytes)` on a list that fits: memory zero but for the bytes from the origin up, PC at the origin,
SP at 0xFF, nothing else changed (R332). -/
def State.loadBytes (s : State) (bytes : List Byte) : State :=
  { s with
    mem := Memory.writeBytes [] Config.origin bytes
    PC := BitVec.ofNat 16 Config.origin
    SP := 0xFF }

/-- `load(bytes)` (R332). -/
def State.loadCommand (s : State) (bytes : List Byte) : Host.Outcome State Fault Refusal :=
  if bytes.length ≤ Config.maxProgram then .next (s.loadBytes bytes) else .refused (.loadTooLarge bytes.length)

/-- What the host sees of the machine between steps, with the address-to-line map that the driver holds (R310). -/
structure Snapshot where
  A : Byte
  X : Byte
  Y : Byte
  PC : Addr
  SP : Byte
  N : Bool
  V : Bool
  Z : Bool
  C : Bool
  cycles : Nat
  steps : Nat
  running : Bool
  mem : Memory
  addressToLine : List (Nat × Nat)
  deriving DecidableEq, Repr

/-- The read-only snapshot (R310). Log 15. -/
def State.snapshot (s : State) (addressToLine : List (Nat × Nat)) : Snapshot where
  A := s.A
  X := s.X
  Y := s.Y
  PC := s.PC
  SP := s.SP
  N := s.N
  V := s.V
  Z := s.Z
  C := s.C
  cycles := s.cycles
  steps := s.steps
  running := s.running
  mem := s.mem
  addressToLine := addressToLine

/-- The five commands (00_scope.md R8). -/
inductive Command where
  | assemble (src : List Text)
  | load (bytes : List Byte)
  | step
  | reset
  | snapshot (addressToLine : List (Nat × Nat))
  deriving DecidableEq, Repr

/-- What a command answers to the host. -/
inductive Reply where
  /-- `assemble`: bytecode and address-to-line map -/
  | assembled (out : Assembled)
  /-- `step`: whether the machine is still running -/
  | running (b : Bool)
  /-- `snapshot` -/
  | snapshot (view : Snapshot)
  /-- `load` and `reset` answer nothing -/
  | done
  deriving DecidableEq, Repr

/-- The machine after a command, and the command's answer. -/
structure Result where
  state : State
  reply : Reply
  deriving DecidableEq, Repr

/-- A machine outcome with an answer computed from its next state. -/
def answer (reply : State → Reply) : Host.Outcome State Fault Refusal → Host.Outcome Result Fault Refusal
  | .next s => .next { state := s, reply := reply s }
  | .fault f => .fault f
  | .refused r => .refused r

/-- `step() -> bool`: one step, and whether the machine is still running after it (30_encoding.md R97). -/
def State.stepCommand (s : State) : Host.Outcome Result Fault Refusal := answer (fun t => .running t.running) (step s)

/-- One command (00_scope.md R8, 60_exceptions.md R311). -/
def Command.perform (c : Command) (s : State) : Host.Outcome Result Fault Refusal :=
  match c with
  | .assemble src =>
    match Machine.assemble src with
    | .ok out => .next { state := s, reply := .assembled out }
    | .error e => .refused (.sourceRefused e)
  | .load bytes => answer (fun _ => .done) (s.loadCommand bytes)
  | .step => s.stepCommand
  | .reset => .next { state := s.resetCommand, reply := .done }
  | .snapshot addressToLine => .next { state := s, reply := .snapshot (s.snapshot addressToLine) }

/-- The sequence that brings the machine to the start of a program: `reset()`, then `load` of the assembled bytes
(R333). -/
def State.launch (s : State) (src : List Text) : Host.Outcome State Fault Refusal :=
  match assemble src with
  | .ok out => s.resetCommand.loadCommand out.bytecode
  | .error e => .refused (.sourceRefused e)

end Sys2Proof.Machine
end

