-- ==== Sys2Proof/Machine/Accesses.lean ====
section
/-! DEFINITION. The memory accesses of one instruction, in order: the table of spec/20_memory.md R66. The machine does
not read it; statements tie it to what `exec` stores and to what the pseudocode machine does. -/

namespace Sys2Proof.Machine

/-- One 1-byte access (20_memory.md R51). -/
inductive Access where
  | read (a : Addr)
  | write (a : Addr) (v : Byte)
  deriving DecidableEq, Repr

/-- The addresses an access list stores to. -/
def writtenAddrs : List Access → List Addr
  | [] => []
  | .read _ :: l => writtenAddrs l
  | .write a _ :: l => a :: writtenAddrs l

/-- The reads of the instruction's own bytes: `call`, `call + 1`, `call + 2`, as many as its length, modulo 65536. -/
def State.fetchReads (s : State) : Nat → List Access
  | 0 => []
  | n + 1 => s.fetchReads n ++ [.read (s.PC + BitVec.ofNat 16 n)]

/-- The accesses of an instruction that starts at PC, oldest first (20_memory.md R66). -/
def accesses (i : Instr) (s : State) : List Access :=
  match i with
  | .inx | .iny | .dex | .dey | .clc | .sec | .tax | .tay | .txa | .tya | .brk | .nop | .unimplemented _ =>
    s.fetchReads 1
  | .ldaImm _ | .ldxImm _ | .ldyImm _ | .adcImm _ | .sbcImm _ | .andImm _ | .oraImm _ | .eorImm _
  | .cmpImm _ | .cpxImm _ | .cpyImm _ => s.fetchReads 2
  | .ldaZp z | .ldxZp z | .ldyZp z | .adcZp z | .cmpZp z | .cpxZp z | .cpyZp z =>
    s.fetchReads 2 ++ [.read (s.eaZp z)]
  | .staZp z => s.fetchReads 2 ++ [.write (s.eaZp z) s.A]
  | .stxZp z => s.fetchReads 2 ++ [.write (s.eaZp z) s.X]
  | .styZp z => s.fetchReads 2 ++ [.write (s.eaZp z) s.Y]
  | .ldaZpx z | .cmpZpx z => s.fetchReads 2 ++ [.read (s.eaZpx z)]
  | .staZpx z => s.fetchReads 2 ++ [.write (s.eaZpx z) s.A]
  | .ldaAbs addr => s.fetchReads 3 ++ [.read (s.eaAbs addr)]
  | .staAbs addr => s.fetchReads 3 ++ [.write (s.eaAbs addr) s.A]
  | .jmp _ => s.fetchReads 3
  | .jsr _ =>
    s.fetchReads 3 ++ [.write (stackAddr s.SP) (highByte s.returnAddr),
      .write (stackAddr (s.SP - 1)) (lowByte s.returnAddr)]
  | .rts => s.fetchReads 1 ++ [.read (stackAddr (s.SP + 1)), .read (stackAddr (s.SP + 2))]
  | .bcc _ | .bcs _ | .beq _ | .bne _ | .bmi _ | .bpl _ => s.fetchReads 2

end Sys2Proof.Machine
end

