-- ==== Sys2Proof/Machine/Pseudocode.lean ====
section
/-! DEFINITION. `step()` as the spec's pseudocode writes it: bytes are fetched one at a time as the instruction needs
them (spec/20_memory.md R57, 30_encoding.md R90, R97), each instruction is its rule's own text, and every access is
logged in order. Statements say that `step` and `accesses` agree with it. -/

namespace Sys2Proof.Machine

/-- A step in progress: the state so far, and the accesses so far, oldest first. -/
structure Run where
  st  : State
  log : List Access
  deriving DecidableEq, Repr

namespace Run

/-- Change the registers, flags, counters or run state; memory goes through `memRead` and `memWrite`. -/
def set (r : Run) (f : State → State) : Run := { r with st := f r.st }

/-- `MemRead(addr, 1)`, logged (20_memory.md R51). -/
def memRead (r : Run) (a : Addr) : Byte × Run := (r.st.memRead a, { r with log := r.log ++ [.read a] })

/-- `MemWrite(addr, 1, v)`, logged (20_memory.md R51). -/
def memWrite (r : Run) (a : Addr) (v : Byte) : Run :=
  { st := r.st.memWrite a v, log := r.log ++ [.write a v] }

/-- `v <- MemRead(PC, 1); PC <- (PC + 1) mod 65536; return v` (20_memory.md R57). -/
def fetch8 (r : Run) : Byte × Run :=
  let (v, r) := r.memRead r.st.PC
  (v, r.set fun s => { s with PC := s.PC + 1 })

/-- `lo <- Fetch8(); hi <- Fetch8(); return {hi, lo}` (20_memory.md R57). -/
def fetch16 (r : Run) : Addr × Run :=
  let (lo, r) := r.fetch8
  let (hi, r) := r.fetch8
  (joinBytes hi lo, r)

/-- `MemWrite(0x0100 + SP, 1, v); SP <- (SP - 1) mod 256` (20_memory.md R58). -/
def push (r : Run) (v : Byte) : Run :=
  (r.memWrite (0x0100 + zext8 r.st.SP) v).set fun s => { s with SP := s.SP - 1 }

/-- `SP <- (SP + 1) mod 256; return MemRead(0x0100 + SP, 1)` (20_memory.md R58). -/
def pop (r : Run) : Byte × Run :=
  let r := r.set fun s => { s with SP := s.SP + 1 }
  r.memRead (0x0100 + zext8 r.st.SP)

/-- `EA(ZP)` (30_encoding.md R90). -/
def eaZp (r : Run) : Addr × Run :=
  let (z, r) := r.fetch8
  (zext8 z, r)

/-- `EA(ZPX)` (30_encoding.md R90). -/
def eaZpx (r : Run) : Addr × Run :=
  let (z, r) := r.fetch8
  (BitVec.ofNat 16 ((z.toNat + r.st.X.toNat) % 256), r)

/-- `EA(ABS)` (30_encoding.md R90). -/
def eaAbs (r : Run) : Addr × Run := r.fetch16

/-- `Operand(IMM)` (30_encoding.md R90). -/
def operandImm (r : Run) : Byte × Run := r.fetch8

/-- `Operand(ZP)` (30_encoding.md R90). -/
def operandZp (r : Run) : Byte × Run :=
  let (a, r) := r.eaZp
  r.memRead a

/-- `Operand(ZPX)` (30_encoding.md R90). -/
def operandZpx (r : Run) : Byte × Run :=
  let (a, r) := r.eaZpx
  r.memRead a

/-- `Operand(ABS)` (30_encoding.md R90). -/
def operandAbs (r : Run) : Byte × Run :=
  let (a, r) := r.eaAbs
  r.memRead a

/-- `m <- Operand(mode)`, and a change of the state that depends on `m`. -/
def withOperand (operand : Byte × Run) (f : Byte → State → State) : Run := operand.2.set (f operand.1)

/-- `a <- EA(mode); MemWrite(a, 1, v)` for a register's value `v` (30_encoding.md R90). -/
def storeAt (ea : Addr × Run) (v : State → Byte) : Run := ea.2.memWrite ea.1 (v ea.2.st)

/-- `Branch(pred)`, which charges the taken and page-cross cycles itself; the row charges its base cost
(43_control_transfer.md R193). -/
def branch (r : Run) (pred : State → Bool) : Run :=
  let (d, r) := r.fetch8
  if pred r.st then
    r.set fun s =>
      let old := s.PC
      let new := BitVec.ofInt 16 (s.PC.toNat + d.toInt)
      let crossed := if old.toNat / 256 ≠ new.toNat / 256 then 1 else 0
      { s with PC := new, cycles := s.cycles + 1 + crossed }
  else r

/-- The instruction rule of each row. The operand bytes in the argument are not looked at: they are fetched here. -/
def execute (i : Instr) (r : Run) : Run :=
  match i with
  | .ldaImm _ => withOperand r.operandImm fun v s => s.loadA v
  | .ldaZp _ => withOperand r.operandZp fun v s => s.loadA v
  | .ldaZpx _ => withOperand r.operandZpx fun v s => s.loadA v
  | .ldaAbs _ => withOperand r.operandAbs fun v s => s.loadA v
  | .ldxImm _ => withOperand r.operandImm fun v s => s.loadX v
  | .ldxZp _ => withOperand r.operandZp fun v s => s.loadX v
  | .ldyImm _ => withOperand r.operandImm fun v s => s.loadY v
  | .ldyZp _ => withOperand r.operandZp fun v s => s.loadY v
  | .staZp _ => storeAt r.eaZp State.A
  | .staZpx _ => storeAt r.eaZpx State.A
  | .staAbs _ => storeAt r.eaAbs State.A
  | .stxZp _ => storeAt r.eaZp State.X
  | .styZp _ => storeAt r.eaZp State.Y
  | .adcImm _ => withOperand r.operandImm fun m s => s.setArith (addC s.A m s.C)
  | .adcZp _ => withOperand r.operandZp fun m s => s.setArith (addC s.A m s.C)
  | .sbcImm _ => withOperand r.operandImm fun m s => s.setArith (subC s.A m s.C)
  | .andImm _ => withOperand r.operandImm fun m s => s.loadA (s.A &&& m)
  | .oraImm _ => withOperand r.operandImm fun m s => s.loadA (s.A ||| m)
  | .eorImm _ => withOperand r.operandImm fun m s => s.loadA (s.A ^^^ m)
  | .cmpImm _ => withOperand r.operandImm fun m s => s.compare s.A m
  | .cmpZp _ => withOperand r.operandZp fun m s => s.compare s.A m
  | .cmpZpx _ => withOperand r.operandZpx fun m s => s.compare s.A m
  | .cpxImm _ => withOperand r.operandImm fun m s => s.compare s.X m
  | .cpxZp _ => withOperand r.operandZp fun m s => s.compare s.X m
  | .cpyImm _ => withOperand r.operandImm fun m s => s.compare s.Y m
  | .cpyZp _ => withOperand r.operandZp fun m s => s.compare s.Y m
  | .inx => r.set fun s => s.loadX (BitVec.ofNat 8 (s.X.toNat + 1))
  | .iny => r.set fun s => s.loadY (BitVec.ofNat 8 (s.Y.toNat + 1))
  | .dex => r.set fun s => s.loadX (BitVec.ofInt 8 (s.X.toNat - 1))
  | .dey => r.set fun s => s.loadY (BitVec.ofInt 8 (s.Y.toNat - 1))
  | .clc => r.set fun s => { s with C := false }
  | .sec => r.set fun s => { s with C := true }
  | .tax => r.set fun s => s.loadX s.A
  | .tay => r.set fun s => s.loadY s.A
  | .txa => r.set fun s => s.loadA s.X
  | .tya => r.set fun s => s.loadA s.Y
  | .jmp _ =>
    let (t, r) := r.fetch16
    r.set fun s => { s with PC := t }
  | .jsr _ =>
    let (t, r) := r.fetch16
    let ret := r.st.PC - 1
    let r := r.push (highByte ret)
    let r := r.push (lowByte ret)
    r.set fun s => { s with PC := t }
  | .rts =>
    let (lo, r) := r.pop
    let (hi, r) := r.pop
    r.set fun s => { s with PC := joinBytes hi lo + 1 }
  | .bcc _ => r.branch fun s => s.C == false
  | .bcs _ => r.branch fun s => s.C == true
  | .beq _ => r.branch fun s => s.Z == true
  | .bne _ => r.branch fun s => s.Z == false
  | .bmi _ => r.branch fun s => s.N == true
  | .bpl _ => r.branch fun s => s.N == false
  | .brk => r.set fun s => { s with running := false }
  | .nop => r
  | .unimplemented _ => r

end Run

/-- The base cost of an opcode: its row's Cycles cell, 2 for the catch-all (30_encoding.md R84, R95). -/
def opcodeCost (op : Byte) : Nat :=
  match rowOfOpcode op with
  | some r => r.cost.base Config.brkCycles
  | none => 2

/-- `step()` of 30_encoding.md R97: the next state, the Boolean it returns, and the accesses it made. -/
def stepPseudocode (s : State) : State × Bool × List Access :=
  if s.running then
    let (opcode, r) := Run.fetch8 { st := s, log := [] }
    let r := r.execute (decodeInstr opcode 0 0)
    let s := { r.st with cycles := r.st.cycles + opcodeCost opcode, steps := r.st.steps + 1 }
    (s, s.running, r.log)
  else (s, false, [])

end Sys2Proof.Machine
end

