-- ==== Sys2Proof/Safety.lean ====
section
/-! DEFINITION. What claims call a safe run, a reachable state and an invariant. -/

namespace Sys2Proof.Machine

/-- The state after `k` steps is `t`. -/
abbrev ReachesIn (k : Nat) (s t : State) : Prop := core.run k s = .next t

/-- Some number of steps leads from `s` to `t`. -/
def Reaches (s t : State) : Prop := ∃ k, ReachesIn k s t

/-- Every run from `s` goes on: no step faults and none is refused (spec/30_encoding.md R98, 60_exceptions.md R300). -/
def SafeFrom (s : State) : Prop := ∀ k, ∃ t, ReachesIn k s t

/-- A property that every step keeps, from every state that has it. -/
def StepKeeps (P : State → Prop) : Prop := ∀ s t, P s → step s = .next t → P t

/-- The machine's memory is in its canonical form. -/
def State.MemoryCanonical (s : State) : Prop := s.mem.wf

/-- A HALTED machine stands one past the BRK byte that halted it (60_exceptions.md R312). -/
def State.HaltedPastBrk (s : State) : Prop := s.running = false → s.memRead (s.PC - 1) = 0x00

end Sys2Proof.Machine
end

