-- ==== Sys2Proof/Certificates/Slice0/Obligations.lean ====
section
/-! DEFINITION. The statements about the machine, for the provers. Each docstring names the rule it formalises, or the
decision of spec/92_eei_decisions.md (D<n>) or the log entry it rests on. -/

open Sys2Proof Sys2Proof.Machine

/-! ## Words the statements share -/

/-- `s` moved past an instruction of `bytes` bytes and `cost` cycles: PC advanced modulo 65536, counters grown, nothing
else changed. -/
def Sys2Proof.Claims.advanced (s : State) (bytes cost : Nat) : State :=
  { s with PC := BitVec.ofNat 16 (s.PC.toNat + bytes), cycles := s.cycles + cost, steps := s.steps + 1 }

/-- `s` with N and Z as the byte `v` sets them: N its sign bit, Z whether it is 0. -/
def Sys2Proof.Claims.withNZ (s : State) (v : Byte) : State :=
  { s with N := decide (128 ≤ v.toNat), Z := decide (v.toNat = 0) }

/-- Adding `m` and the carry to A, in `bytes` bytes and `cost` cycles, leads from `s` to `t`. -/
def Sys2Proof.Claims.AddsWithCarry (s t : State) (m : Byte) (bytes cost : Nat) : Prop :=
  t.A.toNat = (s.A.toNat + m.toNat + s.C.toNat) % 256 ∧
  t.C = decide (255 < s.A.toNat + m.toNat + s.C.toNat) ∧
  t.V = decide (s.A.toInt + m.toInt + s.C.toNat < -128 ∨ 127 < s.A.toInt + m.toInt + s.C.toNat) ∧
  t = { Claims.withNZ (Claims.advanced s bytes cost) t.A with A := t.A, C := t.C, V := t.V }

/-- Subtracting `m` and the borrow from A leads from `s` to `t`. The carry out is the comparison of A with `m`, which
does not look at the borrow (spec/90_conflicts.md C2). -/
def Sys2Proof.Claims.SubtractsWithBorrow (s t : State) (m : Byte) (bytes cost : Nat) : Prop :=
  (t.A.toNat : Int) = (s.A.toNat - m.toNat - (1 - s.C.toNat)) % 256 ∧
  t.C = decide (m.toNat ≤ s.A.toNat) ∧
  t.V = decide (s.A.toInt - m.toInt - (1 - s.C.toNat) < -128 ∨ 127 < s.A.toInt - m.toInt - (1 - s.C.toNat)) ∧
  t = { Claims.withNZ (Claims.advanced s bytes cost) t.A with A := t.A, C := t.C, V := t.V }

/-- `i` compares the register value `r` with `m`: N, Z, C as the rule says, and nothing but them, PC and the counters
changes. -/
def Sys2Proof.Claims.Compares (i : Instr) (s : State) (r m : Byte) : Prop :=
  ∃ t, exec i s = .next t ∧
    t.N = decide (128 ≤ (r.toNat + 256 - m.toNat) % 256) ∧
    t.Z = decide (r = m) ∧
    t.C = decide (m.toNat ≤ r.toNat) ∧
    t = { s with N := t.N, Z := t.Z, C := t.C, PC := t.PC, cycles := t.cycles, steps := t.steps }

/-- `i` stores `v` at `a` and changes no other byte, in `bytes` bytes and `cost` cycles. -/
def Sys2Proof.Claims.Stores (i : Instr) (s : State) (a : Addr) (v : Byte) (bytes cost : Nat) : Prop :=
  ∃ t, exec i s = .next t ∧
    (∀ b : Addr, t.memRead b = if b = a then v else s.memRead b) ∧
    t = { Claims.advanced s bytes cost with mem := t.mem }

/-- `i` branches on `pred` with displacement `d`: not taken it goes on at 2 cycles; taken it goes to the target at 3
cycles, 4 when the high byte of the target differs from that of `call + 2`. -/
def Sys2Proof.Claims.BranchesIf (i : Instr) (s : State) (pred : Bool) (d : Byte) : Prop :=
  ∃ t, exec i s = .next t ∧
    t = { s with PC := t.PC, cycles := t.cycles, steps := s.steps + 1 } ∧
    (pred = false → t.PC.toNat = (s.PC.toNat + 2) % 65536 ∧ t.cycles = s.cycles + 2) ∧
    (pred = true →
      (t.PC.toNat : Int) = (s.PC.toNat + 2 + d.toInt) % 65536 ∧
      t.cycles = s.cycles + (if (s.PC.toNat + 2) % 65536 / 256 = t.PC.toNat / 256 then 3 else 4))

/-- The 47 opcode values of the Instruction Table, in numeric order (30_encoding.md R83, second table). -/
def Sys2Proof.Claims.listedOpcodes : List Byte := [
  0x00, 0x09, 0x10, 0x18, 0x20, 0x29, 0x30, 0x38, 0x49, 0x4C, 0x60, 0x65,
  0x69, 0x84, 0x85, 0x86, 0x88, 0x8A, 0x8D, 0x90, 0x95, 0x98, 0xA0,
  0xA2, 0xA4, 0xA5, 0xA6, 0xA8, 0xA9, 0xAA, 0xAD, 0xB0, 0xB5, 0xC0, 0xC4, 0xC5,
  0xC8, 0xC9, 0xCA, 0xD0, 0xD5, 0xE0, 0xE4, 0xE8, 0xE9, 0xEA, 0xF0]

/-! ## Encoding -/

/-- Every well-formed instruction is read back from its bytes, whatever follows them (30_encoding.md section 6). -/
def Obligations.DecodeReadsBackEveryEncoding : Prop :=
  ∀ (i : Instr) (rest : List Byte), i.wf = true → decode (encode i ++ rest) = .ok (i, rest)

/-- What the decoder reads is well-formed, and its encoding is the bytes that were read (30_encoding.md section 6). -/
def Obligations.EncodeGivesBackTheDecodedBytes : Prop :=
  ∀ (bs rest : List Byte) (i : Instr), decode bs = .ok (i, rest) → i.wf = true ∧ encode i ++ rest = bs

/-- One word of each family, written bit by bit from spec/opcode_table.json, decodes to its instruction. -/
def Obligations.SpecWordsDecode : Prop :=
  decode [0b10101001, 0b00010010] = .ok (.ldaImm 0x12, []) ∧
  decode [0b10001101, 0b00110100, 0b00010010] = .ok (.staAbs 0x1234, []) ∧
  decode [0b01100101, 0b00010000] = .ok (.adcZp 0x10, []) ∧
  decode [0b11101001, 0b00000101] = .ok (.sbcImm 0x05, []) ∧
  decode [0b01001001, 0b11111111] = .ok (.eorImm 0xFF, []) ∧
  decode [0b11010101, 0b11111111] = .ok (.cmpZpx 0xFF, []) ∧
  decode [0b10001000] = .ok (.dey, []) ∧
  decode [0b00111000] = .ok (.sec, []) ∧
  decode [0b10001010] = .ok (.txa, []) ∧
  decode [0b00100000, 0b00001001, 0b00000010] = .ok (.jsr 0x0209, []) ∧
  decode [0b00110000, 0b11111110] = .ok (.bmi 0xFE, []) ∧
  decode [0b00000000] = .ok (.brk, []) ∧
  decode [0b11111111] = .ok (.unimplemented 0xFF, [])

/-- The decoder reads an absolute operand low byte first, for the four absolute opcodes, and the assembler emits it low
byte first (20_memory.md section 3, 45_assembler.md section 4; that the assembler reduces a value from 65536 up modulo
65536 is decision D17, logs 14 and 18). -/
def Obligations.AbsoluteOperandsAreLittleEndian : Prop :=
  (∀ (lo hi : Byte) (rest : List Byte), ∃ w : Addr,
    w.toNat = hi.toNat * 256 + lo.toNat ∧
    decode (0xAD :: lo :: hi :: rest) = .ok (.ldaAbs w, rest) ∧
    decode (0x8D :: lo :: hi :: rest) = .ok (.staAbs w, rest) ∧
    decode (0x4C :: lo :: hi :: rest) = .ok (.jmp w, rest) ∧
    decode (0x20 :: lo :: hi :: rest) = .ok (.jsr w, rest)) ∧
  (∀ address value : Nat,
    operandBytes .abs address value = [BitVec.ofNat 8 (value % 256), BitVec.ofNat 8 (value / 256 % 256)]) ∧
  operandBytes .abs 0x0202 0x0200 = [0x00, 0x02]

/-- Rule R84: the other 209 byte values are 1-byte, 2-cycle no-ops of a machine that stays RUNNING. (Where PC goes past
0xFFFF is decision D1 and not claimed here; what `steps` counts is D7 and not claimed here.) -/
def Obligations.UnlistedOpcodeBytesAreNoOps : Prop :=
  ((List.range 256).filter (fun n => !Claims.listedOpcodes.contains (BitVec.ofNat 8 n))).length = 209 ∧
  ∀ op : Byte, op ∉ Claims.listedOpcodes →
    lengthOfOpcode op = 1 ∧
    (∀ rest, decode (op :: rest) = .ok (.unimplemented op, rest)) ∧
    ∀ s : State, s.running = true → s.memRead s.PC = op →
      ∃ t, step s = .next t ∧ t.cycles = s.cycles + 2 ∧
        (s.PC.toNat < 0xFFFF → t.PC.toNat = s.PC.toNat + 1) ∧
        t = { s with PC := t.PC, cycles := t.cycles, steps := t.steps }

/-- No byte value is rejected: the decoder refuses a list only where it ends too early (30_encoding.md sections 1 to 3;
that it refuses these is the model's own, log 7). -/
def Obligations.DecodeRejectsOnlyTruncatedBytes : Prop :=
  decode [] = .error .noBytes ∧
  ∀ (op : Byte) (rest : List Byte),
    (rest.length + 1 < lengthOfOpcode op → decode (op :: rest) = .error (.truncated op)) ∧
    (lengthOfOpcode op ≤ rest.length + 1 →
      ∃ i, decode (op :: rest) = .ok (i, rest.drop (lengthOfOpcode op - 1)))

/-! ## The step -/

/-- A RUNNING step executes the instruction that the bytes at PC decode to; their addresses are modulo 65536
(30_encoding.md section 9, 20_memory.md section 5; the wrap is decision D1). -/
def Obligations.StepRunsTheDecodedInstruction : Prop :=
  ∀ (s : State) (i : Instr) (rest : List Byte), s.running = true →
    decode [s.mem.read s.PC.toNat, s.mem.read ((s.PC.toNat + 1) % 65536), s.mem.read ((s.PC.toNat + 2) % 65536)] =
      .ok (i, rest) →
    step s = exec i s

/-- Rule R98: from every state there is exactly one next state and one answer; only HALTED changes nothing. -/
def Obligations.StepAlwaysCompletes : Prop :=
  ∀ s : State,
    (∃ t, step s = .next t ∧ s.stepCommand = .next { state := t, reply := .running t.running }) ∧
    (step s = .next s ↔ s.running = false)

/-- Once halted, any number of further steps changes nothing and answers false (30_encoding.md section 9,
60_exceptions.md section 8; that `steps` stays too is decision D7). -/
def Obligations.HaltedStepsChangeNothing : Prop :=
  ∀ (s : State) (k : Nat), s.running = false →
    ReachesIn k s s ∧ s.stepCommand = .next { state := s, reply := .running false }

/-- `step` is the fetch-decode-execute procedure of 30_encoding.md section 9, which fetches one byte at a time and takes
each instruction's cost from the Instruction Table. -/
def Obligations.StepAgreesWithThePseudocode : Prop :=
  ∀ s : State,
    step s = .next (stepPseudocode s).1 ∧
    s.stepCommand = .next { state := (stepPseudocode s).1, reply := .running (stepPseudocode s).2.1 }

/-- The accesses of one step, in order, are the row of its instruction in 20_memory.md section 9; a HALTED step makes
none (the order is decision D26). -/
def Obligations.StepMakesTheTabledAccesses : Prop :=
  ∀ s : State,
    (s.running = true → (stepPseudocode s).2.2 = accesses s.fetchInstr s) ∧
    (s.running = false → (stepPseudocode s).2.2 = [])

/-- Every instruction completes, leaves every byte that its row of 20_memory.md section 9 does not write, and leaves in
each byte that it writes what the row says. -/
def Obligations.OnlyTabledWritesChangeMemory : Prop :=
  ∀ (i : Instr) (s : State), ∃ t, exec i s = .next t ∧
    (∀ b : Addr, b ∉ writtenAddrs (accesses i s) → t.memRead b = s.memRead b) ∧
    (∀ (a : Addr) (v : Byte), Access.write a v ∈ accesses i s → t.memRead a = v)

/-- Every step keeps the canonical form of memory (log 2). -/
def Obligations.StepKeepsMemoryCanonical : Prop := StepKeeps State.MemoryCanonical

/-- Every step keeps: a HALTED machine stands one past a BRK byte (60_exceptions.md section 8; the wrap of PC is
decision D1). -/
def Obligations.StepKeepsHaltedPastBrk : Prop := StepKeeps State.HaltedPastBrk

/-- The state after reset: 10_state.md section 9 with the all-zero memory of a fresh instance, which is decision D10
(log 3). The invariants hold in it. -/
def Obligations.ResetStateValues : Prop :=
  let s := State.reset
  (s.A = 0 ∧ s.X = 0 ∧ s.Y = 0 ∧ s.PC = 0x0000 ∧ s.SP = 0xFF) ∧
  (s.N = false ∧ s.V = false ∧ s.Z = false ∧ s.C = false) ∧
  (s.running = true ∧ s.cycles = 0 ∧ s.steps = 0) ∧
  (∀ a : Addr, s.memRead a = 0) ∧ s.MemoryCanonical ∧ s.HaltedPastBrk

/-- Rule R312: the run ends exactly at a step that executes the byte 0x00, one past that byte, with every other
register, flag and memory byte as before. (PC past 0xFFFF is decision D1 and not claimed here.) -/
def Obligations.HaltsExactlyOnByteZero : Prop :=
  ∀ s : State, s.running = true →
    ∃ t, step s = .next t ∧
      (t.running = false ↔ s.memRead s.PC = 0x00) ∧
      (s.memRead s.PC = 0x00 →
        (s.PC.toNat < 0xFFFF → t.PC.toNat = s.PC.toNat + 1) ∧
        t = { s with PC := t.PC, running := false, cycles := t.cycles, steps := t.steps })

/-- No run from any state faults or is refused (30_encoding.md section 9, 60_exceptions.md section 1). -/
def Obligations.EveryRunIsSafe : Prop := ∀ s : State, SafeFrom s

/-- Each RUNNING step counts one and adds 2 to 6 cycles, or `BRK_CYCLES` for BRK; a HALTED step adds nothing
(70_reset_and_hazards.md section 4; what `steps` counts is decision D7). -/
def Obligations.CountersGrowWithEveryStep : Prop :=
  ∀ s : State, ∃ t, step s = .next t ∧
    (s.running = false → t.steps = s.steps ∧ t.cycles = s.cycles) ∧
    (s.running = true → t.steps = s.steps + 1) ∧
    (s.running = true → s.memRead s.PC = 0x00 → t.cycles = s.cycles + Config.brkCycles) ∧
    (s.running = true → s.memRead s.PC ≠ 0x00 → s.cycles + 2 ≤ t.cycles ∧ t.cycles ≤ s.cycles + 6)

/-! ## Rules over all instructions -/

/-- V is written by ADC and SBC alone, C by these, the compares, CLC and SEC, and the stores, CLC, SEC, control
transfers, BRK and no-ops write neither N nor Z (10_state.md section 5; the set of writers is decision D2). -/
def Obligations.FlagsHaveOnlyTheirWriters : Prop :=
  ∀ (i : Instr) (s : State), ∃ t, exec i s = .next t ∧
    (t.V ≠ s.V → ∃ b, i = .adcImm b ∨ i = .adcZp b ∨ i = .sbcImm b) ∧
    (t.C ≠ s.C → i = .clc ∨ i = .sec ∨
      ∃ b, i = .adcImm b ∨ i = .adcZp b ∨ i = .sbcImm b ∨ i = .cmpImm b ∨ i = .cmpZp b ∨ i = .cmpZpx b ∨
        i = .cpxImm b ∨ i = .cpxZp b ∨ i = .cpyImm b ∨ i = .cpyZp b) ∧
    ((i = .clc ∨ i = .sec ∨ i = .rts ∨ i = .brk ∨ i = .nop ∨
      (∃ b, i = .staZp b ∨ i = .staZpx b ∨ i = .stxZp b ∨ i = .styZp b ∨ i = .bcc b ∨ i = .bcs b ∨ i = .beq b ∨
        i = .bne b ∨ i = .bmi b ∨ i = .bpl b ∨ i = .unimplemented b) ∨
      ∃ w, i = .staAbs w ∨ i = .jmp w ∨ i = .jsr w) → t.N = s.N ∧ t.Z = s.Z)

/-- Each register, and the run state, is written by the instructions 10_state.md section 1 lists for it and by no other
(which mnemonic names which register is decision D12). -/
def Obligations.RegistersHaveOnlyTheirWriters : Prop :=
  ∀ (i : Instr) (s : State), ∃ t, exec i s = .next t ∧
    (t.A ≠ s.A → i = .txa ∨ i = .tya ∨ (∃ w, i = .ldaAbs w) ∨
      ∃ b, i = .ldaImm b ∨ i = .ldaZp b ∨ i = .ldaZpx b ∨ i = .adcImm b ∨ i = .adcZp b ∨ i = .sbcImm b ∨
        i = .andImm b ∨ i = .oraImm b ∨ i = .eorImm b) ∧
    (t.X ≠ s.X → i = .inx ∨ i = .dex ∨ i = .tax ∨ ∃ b, i = .ldxImm b ∨ i = .ldxZp b) ∧
    (t.Y ≠ s.Y → i = .iny ∨ i = .dey ∨ i = .tay ∨ ∃ b, i = .ldyImm b ∨ i = .ldyZp b) ∧
    (t.SP ≠ s.SP → i = .rts ∨ ∃ w, i = .jsr w) ∧
    (t.running ≠ s.running → i = .brk ∧ t.running = false)

/-- An instruction that transfers no control leaves PC at `call` plus its length, modulo 65536 (10_state.md section 3;
the wrap is decision D1). -/
def Obligations.PlainInstructionsGoToTheNext : Prop :=
  ∀ (i : Instr) (s : State), i.wf = true → i ≠ .rts →
    (∀ w, i ≠ .jmp w ∧ i ≠ .jsr w) →
    (∀ d, i ≠ .bcc d ∧ i ≠ .bcs d ∧ i ≠ .beq d ∧ i ≠ .bne d ∧ i ≠ .bmi d ∧ i ≠ .bpl d) →
    ∃ t, exec i s = .next t ∧ t.PC.toNat = (s.PC.toNat + (encode i).length) % 65536

/-- Each instruction adds the Cycles cell of the row of its opcode, 2 when the opcode has no row (30_encoding.md
section 8). -/
def Obligations.CyclesAreThoseOfTheTable : Prop :=
  ∀ (i : Instr) (s : State) (op : Byte) (operands : List Byte), i.wf = true → encode i = op :: operands →
    ∃ t, exec i s = .next t ∧
      (rowOfOpcode op = none → t.cycles = s.cycles + 2) ∧
      ∀ r, rowOfOpcode op = some r →
        (∀ n, r.cost = .fixed n → t.cycles = s.cycles + n) ∧
        (r.cost = .halts → t.cycles = s.cycles + Config.brkCycles) ∧
        (∀ base taken cross, r.cost = .branch base taken cross →
          t.cycles = s.cycles + base ∨ t.cycles = s.cycles + base + taken ∨
          t.cycles = s.cycles + base + taken + cross)

/-- No instruction reads V, `cycles` or `steps`: changing them changes nothing but themselves, and each grows by the
same amount (10_state.md sections 5 and 6, 70_reset_and_hazards.md section 4). -/
def Obligations.VAndCountersAreNeverRead : Prop :=
  ∀ (i : Instr) (s : State) (v : Bool) (c k : Nat), ∃ t u,
    exec i s = .next t ∧ exec i { s with V := v, cycles := c, steps := k } = .next u ∧
    u = { t with V := u.V, cycles := u.cycles, steps := u.steps } ∧
    u.cycles + s.cycles = t.cycles + c ∧ u.steps + s.steps = t.steps + k

/-! ## Memory, addresses and the stack -/

/-- Rule R51: a write changes the byte at its address and no other; a read gives the byte. -/
def Obligations.WriteChangesOneByte : Prop :=
  ∀ (s : State) (a b : Addr) (v : Byte),
    (s.memWrite a v).memRead b = (if b = a then v else s.memRead b) ∧
    s.memWrite a v = { s with mem := (s.memWrite a v).mem }

/-- Push and pop; only RTS pops and only JSR pushes (20_memory.md section 5, 43_control_transfer.md section 2; that JSR
pushes the bytes of `call + 2` is decision D5 with 90_conflicts.md C1, the wrap of `call + 2` D1; log 14). -/
def Obligations.PushAndPop : Prop :=
  (∀ (s : State) (v : Byte),
    (∀ b : Addr, (s.push v).memRead b = if b.toNat = 0x0100 + s.SP.toNat then v else s.memRead b) ∧
    (s.push v).SP.toNat = (s.SP.toNat + 255) % 256 ∧
    s.push v = { s with SP := (s.push v).SP, mem := (s.push v).mem } ∧
    s.pop.1 = s.mem.read (0x0100 + (s.SP.toNat + 1) % 256) ∧
    s.pop.2.SP.toNat = (s.SP.toNat + 1) % 256 ∧
    s.pop.2 = { s with SP := s.pop.2.SP }) ∧
  (∀ (i : Instr) (s : State), ∃ t, exec i s = .next t ∧
    (t.SP ≠ s.SP → (i = .rts ∧ t.SP = s.pop.2.pop.2.SP) ∨
      ∃ w, i = .jsr w ∧ t.mem = ((s.push (highByte (s.PC + 2))).push (lowByte (s.PC + 2))).mem))

/-- The effective addresses and the stack slot, as numbers (20_memory.md section 6, 30_encoding.md section 4). -/
def Obligations.EffectiveAddressesOfTheModes : Prop :=
  ∀ (s : State) (z : Byte) (w : Addr),
    (s.eaZp z).toNat = z.toNat ∧
    (s.eaZpx z).toNat = (z.toNat + s.X.toNat) % 256 ∧
    s.eaAbs w = w ∧
    (stackAddr s.SP).toNat = 0x0100 + s.SP.toNat

/-- The zero-page and zero-page,X stores cannot reach the stack page or anything above (70_reset_and_hazards.md section
3). -/
def Obligations.ZeroPageStoresStayInTheZeroPage : Prop :=
  ∀ (s : State) (z : Byte) (i : Instr), i = .staZp z ∨ i = .staZpx z ∨ i = .stxZp z ∨ i = .styZp z →
    ∃ t, exec i s = .next t ∧ ∀ b : Addr, 0x0100 ≤ b.toNat → t.memRead b = s.memRead b

/-- A store into the opcode byte of the next instruction is seen by the very next fetch (20_memory.md section 7). -/
def Obligations.StoreIsSeenByTheNextFetch : Prop :=
  ∀ s : State, s.running = true → s.fetchInstr = .staAbs (s.PC + 3) →
    ∃ t, step s = .next t ∧ t.fetchInstr = decodeInstr s.A (s.memRead (s.PC + 4)) (s.memRead (s.PC + 5))

/-! ## Instructions, family by family -/

/-- The loads: the register takes the operand, N and Z follow it, nothing else but PC and the counters changes
(40_load_store.md section 1; that loads write N and Z is decision D2). -/
def Obligations.LoadsCopyTheOperand : Prop :=
  ∀ (s : State) (v z : Byte) (w : Addr),
    exec (.ldaImm v) s = .next { Claims.withNZ (Claims.advanced s 2 2) v with A := v } ∧
    exec (.ldxImm v) s = .next { Claims.withNZ (Claims.advanced s 2 2) v with X := v } ∧
    exec (.ldyImm v) s = .next { Claims.withNZ (Claims.advanced s 2 2) v with Y := v } ∧
    (v = s.memRead (s.eaZp z) →
      exec (.ldaZp z) s = .next { Claims.withNZ (Claims.advanced s 2 3) v with A := v } ∧
      exec (.ldxZp z) s = .next { Claims.withNZ (Claims.advanced s 2 3) v with X := v } ∧
      exec (.ldyZp z) s = .next { Claims.withNZ (Claims.advanced s 2 3) v with Y := v }) ∧
    (v = s.memRead (s.eaZpx z) →
      exec (.ldaZpx z) s = .next { Claims.withNZ (Claims.advanced s 2 4) v with A := v }) ∧
    (v = s.memRead (s.eaAbs w) →
      exec (.ldaAbs w) s = .next { Claims.withNZ (Claims.advanced s 3 4) v with A := v })

/-- The stores: one byte of memory takes the register, no flag or register but PC changes (40_load_store.md section
2). -/
def Obligations.StoresWriteOneByte : Prop :=
  ∀ (s : State) (z : Byte) (w : Addr),
    Claims.Stores (.staZp z) s (s.eaZp z) s.A 2 3 ∧
    Claims.Stores (.staZpx z) s (s.eaZpx z) s.A 2 4 ∧
    Claims.Stores (.staAbs w) s (s.eaAbs w) s.A 3 4 ∧
    Claims.Stores (.stxZp z) s (s.eaZp z) s.X 2 3 ∧
    Claims.Stores (.styZp z) s (s.eaZp z) s.Y 2 3

/-- ADC, both forms (41_arithmetic_logic_compare.md sections 1 and 2; that the carry is an addend is decision D3). -/
def Obligations.AdcAddsWithCarry : Prop :=
  ∀ (s : State) (m z : Byte),
    (∃ t, exec (.adcImm m) s = .next t ∧ Claims.AddsWithCarry s t m 2 2) ∧
    (∃ t, exec (.adcZp z) s = .next t ∧ Claims.AddsWithCarry s t (s.memRead (s.eaZp z)) 2 3)

/-- SBC (41_arithmetic_logic_compare.md sections 1 and 3; that the result includes the borrow is decision D4). -/
def Obligations.SbcSubtractsWithBorrow : Prop :=
  ∀ (s : State) (m : Byte), ∃ t, exec (.sbcImm m) s = .next t ∧ Claims.SubtractsWithBorrow s t m 2 2

/-- The carry of a subtraction is "no borrow" except where the operands are equal and the carry in is 0
(41_arithmetic_logic_compare.md section 1, 90_conflicts.md C2). -/
def Obligations.SubCarryIsNoBorrowExceptOnEqual : Prop :=
  ∀ (a m : Byte) (c : Bool),
    (subC a m c).carry = decide ((0 : Int) ≤ a.toNat - m.toNat - (1 - c.toNat)) ↔ ¬ (a = m ∧ c = false)

/-- AND, ORA, EOR act on each bit; N and Z follow the result (41_arithmetic_logic_compare.md section 4; that they write N
and Z is decision D2). -/
def Obligations.LogicActsBitwise : Prop :=
  ∀ (s : State) (m : Byte),
    (∃ t, exec (.andImm m) s = .next t ∧ (∀ k < 8, t.A.getLsbD k = (s.A.getLsbD k && m.getLsbD k)) ∧
      t = { Claims.withNZ (Claims.advanced s 2 2) t.A with A := t.A }) ∧
    (∃ t, exec (.oraImm m) s = .next t ∧ (∀ k < 8, t.A.getLsbD k = (s.A.getLsbD k || m.getLsbD k)) ∧
      t = { Claims.withNZ (Claims.advanced s 2 2) t.A with A := t.A }) ∧
    (∃ t, exec (.eorImm m) s = .next t ∧ (∀ k < 8, t.A.getLsbD k = (s.A.getLsbD k ^^ m.getLsbD k)) ∧
      t = { Claims.withNZ (Claims.advanced s 2 2) t.A with A := t.A })

/-- Rule R137: the compares set N, Z and C from `(register - operand)`, never write a register back and leave V. -/
def Obligations.ComparesSetNZC : Prop :=
  ∀ (s : State) (m z : Byte),
    Claims.Compares (.cmpImm m) s s.A m ∧
    Claims.Compares (.cmpZp z) s s.A (s.memRead (s.eaZp z)) ∧
    Claims.Compares (.cmpZpx z) s s.A (s.memRead (s.eaZpx z)) ∧
    Claims.Compares (.cpxImm m) s s.X m ∧
    Claims.Compares (.cpxZp z) s s.X (s.memRead (s.eaZp z)) ∧
    Claims.Compares (.cpyImm m) s s.Y m ∧
    Claims.Compares (.cpyZp z) s s.Y (s.memRead (s.eaZp z))

/-- INX, INY, DEX, DEY wrap modulo 256; N and Z follow the new value, C and V stay (42_register_and_flag_ops.md section
1; that they write N and Z is decision D2). -/
def Obligations.IncrementsAndDecrementsWrap : Prop :=
  ∀ s : State,
    (∃ t, exec .inx s = .next t ∧ t.X.toNat = (s.X.toNat + 1) % 256 ∧
      t = { Claims.withNZ (Claims.advanced s 1 2) t.X with X := t.X }) ∧
    (∃ t, exec .iny s = .next t ∧ t.Y.toNat = (s.Y.toNat + 1) % 256 ∧
      t = { Claims.withNZ (Claims.advanced s 1 2) t.Y with Y := t.Y }) ∧
    (∃ t, exec .dex s = .next t ∧ t.X.toNat = (s.X.toNat + 255) % 256 ∧
      t = { Claims.withNZ (Claims.advanced s 1 2) t.X with X := t.X }) ∧
    (∃ t, exec .dey s = .next t ∧ t.Y.toNat = (s.Y.toNat + 255) % 256 ∧
      t = { Claims.withNZ (Claims.advanced s 1 2) t.Y with Y := t.Y })

/-- TAX, TAY, TXA, TYA (42_register_and_flag_ops.md section 3; the registers are decision D12, the flags D2). -/
def Obligations.TransfersCopyARegister : Prop :=
  ∀ s : State,
    exec .tax s = .next { Claims.withNZ (Claims.advanced s 1 2) s.A with X := s.A } ∧
    exec .tay s = .next { Claims.withNZ (Claims.advanced s 1 2) s.A with Y := s.A } ∧
    exec .txa s = .next { Claims.withNZ (Claims.advanced s 1 2) s.X with A := s.X } ∧
    exec .tya s = .next { Claims.withNZ (Claims.advanced s 1 2) s.Y with A := s.Y }

/-- Rule R174, CLC, and SEC beside it (42_register_and_flag_ops.md section 2). (PC past 0xFFFF is decision D1 and
`steps` D7; neither is claimed here.) -/
def Obligations.CarryInstructionsSetOnlyC : Prop :=
  decode [0x18] = .ok (.clc, []) ∧ decode [0x38] = .ok (.sec, []) ∧
  ∀ (s : State) (i : Instr) (c : Bool), (i = .clc ∧ c = false) ∨ (i = .sec ∧ c = true) →
    ∃ t, exec i s = .next t ∧ t.cycles = s.cycles + 2 ∧
      (s.PC.toNat < 0xFFFF → t.PC.toNat = s.PC.toNat + 1) ∧
      t = { s with C := c, PC := t.PC, cycles := t.cycles, steps := t.steps }

/-- JMP goes to its operand, whatever it is, and changes nothing else (43_control_transfer.md section 1; what `steps`
counts is decision D7 and not claimed here). -/
def Obligations.JmpGoesToItsOperand : Prop :=
  ∀ (s : State) (lo hi : Byte), ∃ w : Addr,
    w.toNat = hi.toNat * 256 + lo.toNat ∧ decode [0x4C, lo, hi] = .ok (.jmp w, []) ∧
    ∃ t, exec (.jmp w) s = .next t ∧
      t = { s with PC := w, cycles := s.cycles + 3, steps := t.steps }

/-- JSR pushes `call + 2`, high byte then low byte, and goes to its operand; every byte of memory but the two slots
stays (43_control_transfer.md section 2; the value pushed is decision D5). -/
def Obligations.JsrPushesTheReturnAddress : Prop :=
  ∀ (s : State) (w : Addr), ∃ t, exec (.jsr w) s = .next t ∧
    (∀ b : Addr, t.memRead b =
      if b = stackAddr s.SP then BitVec.ofNat 8 ((s.PC.toNat + 2) % 65536 / 256)
      else if b = stackAddr (s.SP - 1) then BitVec.ofNat 8 (s.PC.toNat + 2)
      else s.memRead b) ∧
    t.SP.toNat = (s.SP.toNat + 254) % 256 ∧
    t = { s with PC := w, SP := t.SP, cycles := s.cycles + 6, steps := s.steps + 1, mem := t.mem }

/-- RTS pops the low byte, then the high byte, and goes to the address plus one, modulo 65536
(43_control_transfer.md section 2; the wrap is decision D1). -/
def Obligations.RtsPopsTheReturnAddress : Prop :=
  ∀ s : State, ∃ t, exec .rts s = .next t ∧
    t.PC.toNat = ((s.memRead (stackAddr (s.SP + 2))).toNat * 256 + (s.memRead (stackAddr (s.SP + 1))).toNat + 1) %
      65536 ∧
    t.SP.toNat = (s.SP.toNat + 2) % 256 ∧
    t = { s with PC := t.PC, SP := t.SP, cycles := s.cycles + 6, steps := s.steps + 1 }

/-- The stack law: a call followed at once by a return leads to `call + 3`, with SP as before the call
(43_control_transfer.md section 2). -/
def Obligations.CallThenReturnComesBack : Prop :=
  ∀ (s : State) (w : Addr), ∃ t u, exec (.jsr w) s = .next t ∧ exec .rts t = .next u ∧
    u.PC.toNat = (s.PC.toNat + 3) % 65536 ∧ u.SP = s.SP

/-- The six branches (43_control_transfer.md section 3; the page test's old PC is decision D21, the wrap D1, `steps`
D7). -/
def Obligations.BranchesFollowTheirFlag : Prop :=
  ∀ (s : State) (d : Byte),
    Claims.BranchesIf (.bcc d) s (!s.C) d ∧
    Claims.BranchesIf (.bcs d) s s.C d ∧
    Claims.BranchesIf (.beq d) s s.Z d ∧
    Claims.BranchesIf (.bne d) s (!s.Z) d ∧
    Claims.BranchesIf (.bmi d) s s.N d ∧
    Claims.BranchesIf (.bpl d) s (!s.N) d

/-- BRK halts and changes nothing else (30_encoding.md sections 2 and 9, 60_exceptions.md section 8). The cost is the
open parameter of decision D6 (log 1); that it pushes nothing is decision D22, that the halting step counts in `steps` D7,
the wrap of PC D1 (log 14). -/
def Obligations.BrkHalts : Prop :=
  ∀ s : State, exec .brk s = .next { Claims.advanced s 1 Config.brkCycles with running := false }

/-- NOP, and every opcode byte outside the table, only go on (30_encoding.md sections 2, 3 and 9; the wrap of PC is
decision D1, `steps` D7, log 14). That a catch-all term which carries an opcode of the table is a no-op too is the
model's own choice (log 8). -/
def Obligations.NoOpsOnlyAdvance : Prop :=
  ∀ (s : State) (op : Byte),
    exec .nop s = .next (Claims.advanced s 1 2) ∧ exec (.unimplemented op) s = .next (Claims.advanced s 1 2)

/-! ## The host's commands -/

/-- `reset()` restores the initial state but for memory, which it leaves (decision D9); it is idempotent; and after a
reload nothing tells the machine from a fresh one (70_reset_and_hazards.md sections 1 and 2). -/
def Obligations.ResetCommandRestoresTheInitialState : Prop :=
  ∀ (s : State) (bytes : List Byte),
    (let t := s.resetCommand;
      (t.A = 0 ∧ t.X = 0 ∧ t.Y = 0 ∧ t.PC = 0x0000 ∧ t.SP = 0xFF) ∧
      (t.N = false ∧ t.V = false ∧ t.Z = false ∧ t.C = false) ∧
      (t.running = true ∧ t.cycles = 0 ∧ t.steps = 0) ∧
      ∀ a : Addr, t.memRead a = s.memRead a) ∧
    s.resetCommand.resetCommand = s.resetCommand ∧
    s.resetCommand.loadCommand bytes = State.reset.loadCommand bytes

/-- `load(bytes)`: memory is zero but for the program at the origin, PC and SP are set, all else stays (decision D11);
a list that does not fit is refused (70_reset_and_hazards.md section 1). -/
def Obligations.LoadPlacesTheProgram : Prop :=
  ∀ (s : State) (bytes : List Byte),
    (bytes.length ≤ 0xFE00 → ∃ t, s.loadCommand bytes = .next t ∧ t.MemoryCanonical ∧
      (∀ b : Addr, t.memRead b = if 0x0200 ≤ b.toNat then bytes.getD (b.toNat - 0x0200) 0 else 0) ∧
      t = { s with PC := 0x0200, SP := 0xFF, mem := t.mem }) ∧
    (0xFE00 < bytes.length → s.loadCommand bytes = .refused (.loadTooLarge bytes.length))

/-- The run states and the commands that move between them (60_exceptions.md section 8; that `load` keeps the run state
is decision D11). -/
def Obligations.CommandsMoveTheRunState : Prop :=
  ∀ s : State,
    (s.running = true → s.memRead s.PC ≠ 0x00 →
      ∃ t, Command.step.perform s = .next { state := t, reply := .running true } ∧ t.running = true) ∧
    (s.running = true → s.memRead s.PC = 0x00 →
      ∃ t, Command.step.perform s = .next { state := t, reply := .running false } ∧ t.running = false) ∧
    (s.running = false → Command.step.perform s = .next { state := s, reply := .running false }) ∧
    (∃ t, Command.reset.perform s = .next { state := t, reply := .done } ∧ t.running = true) ∧
    (∀ bytes : List Byte, bytes.length ≤ 0xFE00 →
      ∃ t, (Command.load bytes).perform s = .next { state := t, reply := .done } ∧ t.running = s.running) ∧
    (∀ map, (Command.snapshot map).perform s = .next { state := s, reply := .snapshot (s.snapshot map) })

/-! ## The assembler -/

/-- Pass 1 lays the records out from the origin without gaps, pass 2 emits as many bytes, and the line map has one entry
per record (45_assembler.md section 5). -/
def Obligations.AssembledLayoutHasNoGaps : Prop :=
  ∀ (src : List Text) (l : Layout) (out : Assembled), pass1 src = .ok l → assemble src = .ok out →
    out.addressToLine = l.records.map (fun r => (r.address, r.lineIndex)) ∧
    out.bytecode.length + 0x0200 = l.addr ∧
    (∀ r, l.records.head? = some r → r.address = 0x0200) ∧
    ∀ (k : Nat) (r q : Record) (row : Row) (v : Text), l.records[k]? = some r → rowOfText r.text = .ok (row, v) →
      r.address + row.bytes ≤ l.addr ∧ (l.records[k + 1]? = some q → q.address = r.address + row.bytes)

/-- What the assembler emits can always be loaded (45_assembler.md section 6, 70_reset_and_hazards.md section 1). -/
def Obligations.AssembledProgramsLoad : Prop :=
  ∀ (src : List Text) (out : Assembled) (s : State), assemble src = .ok out →
    ∃ t, s.loadCommand out.bytecode = .next t

/-- After `load` of an assembled program, the machine finds at each record's address the opcode of the row that the
record's text selects, and decodes there an instruction of that row's length (45_assembler.md section 5,
30_encoding.md section 6). -/
def Obligations.AssembledAddressesHoldTheirInstructions : Prop :=
  ∀ (src : List Text) (l : Layout) (out : Assembled) (s t : State) (r : Record),
    pass1 src = .ok l → assemble src = .ok out → s.loadCommand out.bytecode = .next t → r ∈ l.records →
    ∃ row v, rowOfText r.text = .ok (row, v) ∧ rowOfOpcode row.opcode = some row ∧
      t.memRead (BitVec.ofNat 16 r.address) = row.opcode ∧
      ∃ operands, encode { t with PC := BitVec.ofNat 16 r.address }.fetchInstr = row.opcode :: operands ∧
        operands.length + 1 = row.bytes

/-- A single line whose text selects a row is assembled to that row's opcode and length (45_assembler.md section 5,
property 1 of 95_test_vectors.md section 1.2). -/
def Obligations.OneLineAssemblesToItsOpcode : Prop :=
  ∀ (line : Text) (out : Assembled) (row : Row) (v : Text),
    assemble [line] = .ok out → rowOfText (prepare line) = .ok (row, v) →
    out.bytecode.head? = some row.opcode ∧ out.bytecode.length = row.bytes ∧ out.addressToLine = [(0x0200, 0)]

/-- A taken branch whose displacement byte was computed from a target in range goes to exactly that target
(30_encoding.md section 6, 45_assembler.md section 4). -/
def Obligations.TakenBranchReachesItsTarget : Prop :=
  ∀ (s : State) (target : Nat) (i : Instr),
    target < 65536 → (-128 : Int) ≤ target - (s.PC.toNat + 2) → (target : Int) - (s.PC.toNat + 2) ≤ 127 →
    ((i = .bcc (displacement target s.PC.toNat) ∧ s.C = false) ∨
      (i = .bcs (displacement target s.PC.toNat) ∧ s.C = true) ∨
      (i = .beq (displacement target s.PC.toNat) ∧ s.Z = true) ∨
      (i = .bne (displacement target s.PC.toNat) ∧ s.Z = false) ∨
      (i = .bmi (displacement target s.PC.toNat) ∧ s.N = true) ∨
      (i = .bpl (displacement target s.PC.toNat) ∧ s.N = false)) →
    ∃ t, exec i s = .next t ∧ t.PC.toNat = target

/-- The two silent degradations of the assembler: a literal that does not parse and a label that is not defined are 0
(45_assembler.md section 5; that a literal parses whole or not at all is decision D15). -/
def Obligations.SilentDegradationsGiveZero : Prop :=
  (∀ cs : Text, ¬ (cs ≠ [] ∧ ∀ c ∈ cs, isUpperHex c = true) → ∀ symbols, resolve symbols ('$' :: cs) = .ok 0) ∧
  (∀ (c : Char) (cs : Text), isDecDigit c = true → ¬ (∀ d ∈ cs, isDecDigit d = true) →
    ∀ symbols, resolve symbols (c :: cs) = .ok 0) ∧
  (∀ (name : Text) (symbols : Symbols), isIdent name = true → symbols.lookup name = none →
    resolve symbols name = .ok 0)
end

