-- ==== Sys2Proof/Laws/Bits.lean ====
section
/-! SUPPORT. Splitting a 16-bit word into its bytes and joining them again; the extensions as numbers. -/

namespace Sys2Proof

@[simp] theorem lowByte_joinBytes (hi lo : Byte) : lowByte (joinBytes hi lo) = lo := by
  ext i hi'
  simp only [lowByte, joinBytes, BitVec.getElem_extractLsb', BitVec.getLsbD_append]
  simp [hi', BitVec.getLsbD_eq_getElem]

@[simp] theorem highByte_joinBytes (hi lo : Byte) : highByte (joinBytes hi lo) = hi := by
  ext i hi'
  simp only [highByte, joinBytes, BitVec.getElem_extractLsb', BitVec.getLsbD_append]
  simp [BitVec.getLsbD_eq_getElem hi']

theorem toNat_joinBytes (hi lo : Byte) : (joinBytes hi lo).toNat = hi.toNat * 256 + lo.toNat := by
  unfold joinBytes
  rw [BitVec.toNat_append, ← Nat.shiftLeft_add_eq_or_of_lt lo.isLt, Nat.shiftLeft_eq]

theorem toNat_lowByte (w : Addr) : (lowByte w).toNat = w.toNat % 256 := by
  simp [lowByte]

theorem toNat_highByte (w : Addr) : (highByte w).toNat = w.toNat / 256 := by
  have h := w.isLt
  simp only [highByte, BitVec.extractLsb'_toNat, Nat.shiftRight_eq_div_pow]
  omega

@[simp] theorem joinBytes_high_low (w : Addr) : joinBytes (highByte w) (lowByte w) = w := by
  apply BitVec.eq_of_toNat_eq
  rw [toNat_joinBytes, toNat_highByte, toNat_lowByte]
  omega

@[simp] theorem toNat_zext8 (b : Byte) : (zext8 b).toNat = b.toNat := by
  have h := b.isLt
  simp only [zext8, BitVec.toNat_setWidth]
  omega

/-- `sext_8` adds the two's-complement reading of the byte, modulo 65536. -/
theorem sext8_eq_ofInt (b : Byte) : sext8 b = BitVec.ofInt 16 b.toInt := rfl

end Sys2Proof
end

