-- ==== Sys2Proof/Laws/Decode.lean ====
section
/-! SUPPORT. The table lookup and the two forms of the decoder. -/

namespace Sys2Proof

/-- The decoder's lookup answers with a row of the table that has the opcode. -/
theorem mem_of_rowOfOpcode {op : Byte} {r : Row} (h : rowOfOpcode op = some r) :
    r ∈ instructionTable ∧ r.opcode = op :=
  ⟨List.mem_of_find?_eq_some h, by simpa using List.find?_some h⟩

/-- The encoder's lookup answers with a row of the table that has the form. -/
theorem mem_of_rowOfForm {mn : Mnemonic} {mode : Mode} {r : Row} (h : rowOfForm mn mode = some r) :
    r ∈ instructionTable ∧ r.mnemonic = mn ∧ r.mode = mode :=
  ⟨List.mem_of_find?_eq_some h, by simpa using List.find?_some h⟩

/-- A byte outside the table decodes to the catch-all, whatever follows it. -/
theorem decodeInstr_of_none {op : Byte} (h : rowOfOpcode op = none) (b1 b2 : Byte) :
    decodeInstr op b1 b2 = .unimplemented op := by
  simp [decodeInstr, h]

/-- Every length is 1, 2 or 3. -/
theorem lengthOfOpcode_cases (op : Byte) : lengthOfOpcode op = 1 ∨ lengthOfOpcode op = 2 ∨ lengthOfOpcode op = 3 := by
  unfold lengthOfOpcode
  cases h : rowOfOpcode op with
  | none => exact .inl rfl
  | some r =>
    have : ∀ r ∈ instructionTable, r.bytes = 1 ∨ r.bytes = 2 ∨ r.bytes = 3 := by decide
    exact this r (mem_of_rowOfOpcode h).1

/-- Every row of the table has an instruction. -/
theorem ofForm_isSome {r : Row} (h : r ∈ instructionTable) (b1 b2 : Byte) :
    (Instr.ofForm r.mnemonic r.mode b1 b2).isSome := by
  have : ∀ r ∈ instructionTable, (Instr.ofForm r.mnemonic r.mode b1 b2).isSome = true := by
    simp only [instructionTable, loadStoreRows, arithmeticRows, registerRows, controlRows, List.cons_append,
      List.nil_append, List.forall_mem_cons]
    simp [Instr.ofForm]
  exact this r h

end Sys2Proof
end

