-- ==== Sys2Proof/Laws/Memory.lean ====
section
/-! SUPPORT. What a byte of memory reads as after each memory operation, and that each keeps the canonical form. -/

namespace Sys2Proof.Machine.Memory

@[simp] theorem read_nil (a : Nat) : read [] a = unlistedByte := rfl

theorem read_cons (c : Host.Cell) (m : Memory) (a : Nat) :
    read (c :: m) a = if c.1 = a then c.2 else read m a := rfl

theorem read_of_absent {m : Memory} {a : Nat} (h : ∀ c ∈ m, c.1 ≠ a) : m.read a = unlistedByte := by
  induction m with
  | nil => rfl
  | cons c m ih =>
    rw [read_cons, if_neg (h c (by simp)), ih fun d hd => h d (by simp [hd])]

@[simp] theorem erase_nil (a : Nat) : erase [] a = [] := rfl

theorem erase_cons (c : Host.Cell) (m : Memory) (a : Nat) :
    erase (c :: m) a = if c.1 = a then erase m a else c :: erase m a := by
  by_cases h : c.1 = a <;> simp [erase, h]

theorem mem_erase {m : Memory} {a : Nat} {c : Host.Cell} : c ∈ m.erase a ↔ c ∈ m ∧ c.1 ≠ a := by
  simp [erase]

theorem read_erase (m : Memory) (a b : Nat) : (m.erase a).read b = if b = a then unlistedByte else m.read b := by
  induction m with
  | nil => simp
  | cons c m ih =>
    rw [erase_cons]
    split_ifs with h₁ h₂ h₂
    · rw [ih, if_pos h₂]
    · rw [ih, if_neg h₂, read_cons, if_neg (fun h => h₂ (h.symm.trans h₁))]
    · subst h₂; rw [read_cons, if_neg h₁, ih, if_pos rfl]
    · rw [read_cons, read_cons, ih, if_neg h₂]

theorem mem_insert {m : Memory} {a : Nat} {v : Byte} {c : Host.Cell} :
    c ∈ m.insert a v ↔ c = (a, v) ∨ c ∈ m := by
  induction m with
  | nil => simp [insert]
  | cons d m ih =>
    rw [insert]
    split_ifs
    · simp
    · simp only [List.mem_cons, ih]; tauto

theorem read_insert_other (m : Memory) {a b : Nat} (v : Byte) (h : b ≠ a) : (m.insert a v).read b = m.read b := by
  induction m with
  | nil => rw [insert, read_cons, if_neg (Ne.symm h)]
  | cons c m ih =>
    rw [insert]
    split_ifs
    · rw [read_cons, if_neg (Ne.symm h)]
    · rw [read_cons, read_cons, ih]

theorem read_insert_same {m : Memory} {a : Nat} (v : Byte) (h : ∀ c ∈ m, c.1 ≠ a) : (m.insert a v).read a = v := by
  induction m with
  | nil => rw [insert, read_cons, if_pos rfl]
  | cons c m ih =>
    rw [insert]
    split_ifs
    · rw [read_cons, if_pos rfl]
    · rw [read_cons, if_neg (h c (by simp)), ih fun d hd => h d (by simp [hd])]

/-- A store changes one byte, on any list. -/
theorem read_write (m : Memory) (a b : Nat) (v : Byte) : (m.write a v).read b = if b = a then v else m.read b := by
  unfold write
  split_ifs with h₁ h₂ h₂
  · rw [read_erase, if_pos h₂, h₁]
  · rw [read_erase, if_neg h₂]
  · subst h₂; exact read_insert_same v fun c hc => (mem_erase.mp hc).2
  · rw [read_insert_other _ _ h₂, read_erase, if_neg h₂]

/-! ## The canonical form -/

theorem wf_nil : wf [] := ⟨.nil, fun _ h => absurd h List.not_mem_nil⟩

theorem wf_erase {m : Memory} (a : Nat) (h : m.wf) : (m.erase a).wf :=
  ⟨h.1.filter _, fun c hc => h.2 c (mem_erase.mp hc).1⟩

theorem wf_insert {m : Memory} {a : Nat} {v : Byte} (h : m.wf) (habsent : ∀ c ∈ m, c.1 ≠ a)
    (hv : v ≠ unlistedByte) (ha : a < Config.memorySize) : (m.insert a v).wf := by
  refine ⟨?_, fun c hc => (mem_insert.mp hc).elim (fun e => e ▸ ⟨hv, ha⟩) (h.2 c)⟩
  have hp := h.1
  clear h
  induction m with
  | nil => simp [insert]
  | cons d m ih =>
    obtain ⟨hd, hm⟩ := List.pairwise_cons.mp hp
    rw [insert]
    split_ifs with hlt
    · refine List.pairwise_cons.mpr ⟨fun c hc => ?_, hp⟩
      rcases List.mem_cons.mp hc with rfl | hc
      · exact hlt
      · exact lt_trans hlt (hd c hc)
    · refine List.pairwise_cons.mpr ⟨fun c hc => ?_, ih (fun c hc => habsent c (by simp [hc])) hm⟩
      rcases mem_insert.mp hc with rfl | hc
      · exact lt_of_le_of_ne (not_lt.mp hlt) (habsent d (by simp))
      · exact hd c hc

/-- A store inside the address space keeps the canonical form. -/
theorem wf_write {m : Memory} {a : Nat} (v : Byte) (h : m.wf) (ha : a < Config.memorySize) : (m.write a v).wf := by
  unfold write
  split_ifs with hv
  · exact wf_erase a h
  · exact wf_insert (wf_erase a h) (fun c hc => (mem_erase.mp hc).2) hv ha

theorem wf_writeBytes {m : Memory} {a : Nat} (bs : List Byte) (h : m.wf) (ha : a + bs.length ≤ Config.memorySize) :
    (m.writeBytes a bs).wf := by
  induction bs generalizing m a with
  | nil => exact h
  | cons b bs ih =>
    have ha' : a + (bs.length + 1) ≤ Config.memorySize := ha
    exact ih (wf_write b h (by omega)) (by omega)

/-- Equal bytes everywhere make equal canonical lists. -/
theorem wf_ext {m n : Memory} (hm : m.wf) (hn : n.wf) (h : ∀ a, m.read a = n.read a) : m = n := by
  have key : ∀ {m n : Memory}, m.wf → n.wf → (∀ a, m.read a = n.read a) → ∀ c ∈ m, c ∈ n := by
    intro m n hm hn h c hc
    have hread : ∀ {m : Memory}, m.wf → ∀ c ∈ m, m.read c.1 = c.2 := by
      intro m hm
      induction m with
      | nil => simp
      | cons d m ih =>
        obtain ⟨hd, hp⟩ := List.pairwise_cons.mp hm.1
        intro c hc
        rcases List.mem_cons.mp hc with rfl | hc
        · rw [read_cons, if_pos rfl]
        · rw [read_cons, if_neg (ne_of_lt (hd c hc)), ih ⟨hp, fun e he => hm.2 e (by simp [he])⟩ c hc]
    by_contra hcn
    have : ∃ d ∈ n, d.1 = c.1 := by
      by_contra hno
      push Not at hno
      exact (hm.2 c hc).1 (by rw [← hread hm c hc, h, read_of_absent hno])
    obtain ⟨d, hd, hdc⟩ := this
    refine hcn ?_
    have : c = d := Prod.ext hdc.symm (by rw [← hread hm c hc, ← hread hn d hd, h, hdc])
    exact this ▸ hd
  exact hm.1.eq_of_mem_iff hn.1 fun c => ⟨key hm hn h c, key hn hm (fun a => (h a).symm) c⟩

end Sys2Proof.Machine.Memory
end

