-- ==== Sys2Proof/Laws/State.lean ====
section
/-! SUPPORT. Each shared update of State, field by field, so that no later proof unfolds a record update. -/

namespace Sys2Proof.Machine.State

/-! ## MemWrite -/

@[simp] theorem memWrite_A (s : State) (a : Addr) (v : Byte) : (s.memWrite a v).A = s.A := rfl
@[simp] theorem memWrite_X (s : State) (a : Addr) (v : Byte) : (s.memWrite a v).X = s.X := rfl
@[simp] theorem memWrite_Y (s : State) (a : Addr) (v : Byte) : (s.memWrite a v).Y = s.Y := rfl
@[simp] theorem memWrite_PC (s : State) (a : Addr) (v : Byte) : (s.memWrite a v).PC = s.PC := rfl
@[simp] theorem memWrite_SP (s : State) (a : Addr) (v : Byte) : (s.memWrite a v).SP = s.SP := rfl
@[simp] theorem memWrite_N (s : State) (a : Addr) (v : Byte) : (s.memWrite a v).N = s.N := rfl
@[simp] theorem memWrite_V (s : State) (a : Addr) (v : Byte) : (s.memWrite a v).V = s.V := rfl
@[simp] theorem memWrite_Z (s : State) (a : Addr) (v : Byte) : (s.memWrite a v).Z = s.Z := rfl
@[simp] theorem memWrite_C (s : State) (a : Addr) (v : Byte) : (s.memWrite a v).C = s.C := rfl
@[simp] theorem memWrite_running (s : State) (a : Addr) (v : Byte) : (s.memWrite a v).running = s.running := rfl
@[simp] theorem memWrite_cycles (s : State) (a : Addr) (v : Byte) : (s.memWrite a v).cycles = s.cycles := rfl
@[simp] theorem memWrite_steps (s : State) (a : Addr) (v : Byte) : (s.memWrite a v).steps = s.steps := rfl
@[simp] theorem memWrite_mem (s : State) (a : Addr) (v : Byte) : (s.memWrite a v).mem = s.mem.write a.toNat v := rfl

/-! ## Push -/

@[simp] theorem push_A (s : State) (v : Byte) : (s.push v).A = s.A := rfl
@[simp] theorem push_X (s : State) (v : Byte) : (s.push v).X = s.X := rfl
@[simp] theorem push_Y (s : State) (v : Byte) : (s.push v).Y = s.Y := rfl
@[simp] theorem push_PC (s : State) (v : Byte) : (s.push v).PC = s.PC := rfl
@[simp] theorem push_SP (s : State) (v : Byte) : (s.push v).SP = s.SP - 1 := rfl
@[simp] theorem push_N (s : State) (v : Byte) : (s.push v).N = s.N := rfl
@[simp] theorem push_V (s : State) (v : Byte) : (s.push v).V = s.V := rfl
@[simp] theorem push_Z (s : State) (v : Byte) : (s.push v).Z = s.Z := rfl
@[simp] theorem push_C (s : State) (v : Byte) : (s.push v).C = s.C := rfl
@[simp] theorem push_running (s : State) (v : Byte) : (s.push v).running = s.running := rfl
@[simp] theorem push_cycles (s : State) (v : Byte) : (s.push v).cycles = s.cycles := rfl
@[simp] theorem push_steps (s : State) (v : Byte) : (s.push v).steps = s.steps := rfl
@[simp] theorem push_mem (s : State) (v : Byte) : (s.push v).mem = s.mem.write (stackAddr s.SP).toNat v := rfl

/-! ## The state after Pop -/

@[simp] theorem pop_snd_A (s : State) : (s.pop.2).A = s.A := rfl
@[simp] theorem pop_snd_X (s : State) : (s.pop.2).X = s.X := rfl
@[simp] theorem pop_snd_Y (s : State) : (s.pop.2).Y = s.Y := rfl
@[simp] theorem pop_snd_PC (s : State) : (s.pop.2).PC = s.PC := rfl
@[simp] theorem pop_snd_SP (s : State) : (s.pop.2).SP = s.SP + 1 := rfl
@[simp] theorem pop_snd_N (s : State) : (s.pop.2).N = s.N := rfl
@[simp] theorem pop_snd_V (s : State) : (s.pop.2).V = s.V := rfl
@[simp] theorem pop_snd_Z (s : State) : (s.pop.2).Z = s.Z := rfl
@[simp] theorem pop_snd_C (s : State) : (s.pop.2).C = s.C := rfl
@[simp] theorem pop_snd_running (s : State) : (s.pop.2).running = s.running := rfl
@[simp] theorem pop_snd_cycles (s : State) : (s.pop.2).cycles = s.cycles := rfl
@[simp] theorem pop_snd_steps (s : State) : (s.pop.2).steps = s.steps := rfl
@[simp] theorem pop_snd_mem (s : State) : (s.pop.2).mem = s.mem := rfl

/-! ## The end of a control transfer -/

@[simp] theorem transfer_A (s : State) (target : Addr) (cost : Nat) : (s.transfer target cost).A = s.A := rfl
@[simp] theorem transfer_X (s : State) (target : Addr) (cost : Nat) : (s.transfer target cost).X = s.X := rfl
@[simp] theorem transfer_Y (s : State) (target : Addr) (cost : Nat) : (s.transfer target cost).Y = s.Y := rfl
@[simp] theorem transfer_PC (s : State) (target : Addr) (cost : Nat) : (s.transfer target cost).PC = target := rfl
@[simp] theorem transfer_SP (s : State) (target : Addr) (cost : Nat) : (s.transfer target cost).SP = s.SP := rfl
@[simp] theorem transfer_N (s : State) (target : Addr) (cost : Nat) : (s.transfer target cost).N = s.N := rfl
@[simp] theorem transfer_V (s : State) (target : Addr) (cost : Nat) : (s.transfer target cost).V = s.V := rfl
@[simp] theorem transfer_Z (s : State) (target : Addr) (cost : Nat) : (s.transfer target cost).Z = s.Z := rfl
@[simp] theorem transfer_C (s : State) (target : Addr) (cost : Nat) : (s.transfer target cost).C = s.C := rfl
@[simp] theorem transfer_running (s : State) (target : Addr) (cost : Nat) : (s.transfer target cost).running = s.running := rfl
@[simp] theorem transfer_cycles (s : State) (target : Addr) (cost : Nat) : (s.transfer target cost).cycles = s.cycles + cost := rfl
@[simp] theorem transfer_steps (s : State) (target : Addr) (cost : Nat) : (s.transfer target cost).steps = s.steps + 1 := rfl
@[simp] theorem transfer_mem (s : State) (target : Addr) (cost : Nat) : (s.transfer target cost).mem = s.mem := rfl

/-! ## The end of an instruction that goes on to the next -/

@[simp] theorem retire_A (s : State) (bytes : Addr) (cost : Nat) : (s.retire bytes cost).A = s.A := rfl
@[simp] theorem retire_X (s : State) (bytes : Addr) (cost : Nat) : (s.retire bytes cost).X = s.X := rfl
@[simp] theorem retire_Y (s : State) (bytes : Addr) (cost : Nat) : (s.retire bytes cost).Y = s.Y := rfl
@[simp] theorem retire_PC (s : State) (bytes : Addr) (cost : Nat) : (s.retire bytes cost).PC = s.PC + bytes := rfl
@[simp] theorem retire_SP (s : State) (bytes : Addr) (cost : Nat) : (s.retire bytes cost).SP = s.SP := rfl
@[simp] theorem retire_N (s : State) (bytes : Addr) (cost : Nat) : (s.retire bytes cost).N = s.N := rfl
@[simp] theorem retire_V (s : State) (bytes : Addr) (cost : Nat) : (s.retire bytes cost).V = s.V := rfl
@[simp] theorem retire_Z (s : State) (bytes : Addr) (cost : Nat) : (s.retire bytes cost).Z = s.Z := rfl
@[simp] theorem retire_C (s : State) (bytes : Addr) (cost : Nat) : (s.retire bytes cost).C = s.C := rfl
@[simp] theorem retire_running (s : State) (bytes : Addr) (cost : Nat) : (s.retire bytes cost).running = s.running := rfl
@[simp] theorem retire_cycles (s : State) (bytes : Addr) (cost : Nat) : (s.retire bytes cost).cycles = s.cycles + cost := rfl
@[simp] theorem retire_steps (s : State) (bytes : Addr) (cost : Nat) : (s.retire bytes cost).steps = s.steps + 1 := rfl
@[simp] theorem retire_mem (s : State) (bytes : Addr) (cost : Nat) : (s.retire bytes cost).mem = s.mem := rfl

/-! ## SetNZ -/

@[simp] theorem setNZ_A (s : State) (v : Byte) : (s.setNZ v).A = s.A := rfl
@[simp] theorem setNZ_X (s : State) (v : Byte) : (s.setNZ v).X = s.X := rfl
@[simp] theorem setNZ_Y (s : State) (v : Byte) : (s.setNZ v).Y = s.Y := rfl
@[simp] theorem setNZ_PC (s : State) (v : Byte) : (s.setNZ v).PC = s.PC := rfl
@[simp] theorem setNZ_SP (s : State) (v : Byte) : (s.setNZ v).SP = s.SP := rfl
@[simp] theorem setNZ_N (s : State) (v : Byte) : (s.setNZ v).N = v.getLsbD 7 := rfl
@[simp] theorem setNZ_V (s : State) (v : Byte) : (s.setNZ v).V = s.V := rfl
@[simp] theorem setNZ_Z (s : State) (v : Byte) : (s.setNZ v).Z = (v == 0) := rfl
@[simp] theorem setNZ_C (s : State) (v : Byte) : (s.setNZ v).C = s.C := rfl
@[simp] theorem setNZ_running (s : State) (v : Byte) : (s.setNZ v).running = s.running := rfl
@[simp] theorem setNZ_cycles (s : State) (v : Byte) : (s.setNZ v).cycles = s.cycles := rfl
@[simp] theorem setNZ_steps (s : State) (v : Byte) : (s.setNZ v).steps = s.steps := rfl
@[simp] theorem setNZ_mem (s : State) (v : Byte) : (s.setNZ v).mem = s.mem := rfl

/-! ## Cmp -/

@[simp] theorem compare_A (s : State) (r m : Byte) : (s.compare r m).A = s.A := rfl
@[simp] theorem compare_X (s : State) (r m : Byte) : (s.compare r m).X = s.X := rfl
@[simp] theorem compare_Y (s : State) (r m : Byte) : (s.compare r m).Y = s.Y := rfl
@[simp] theorem compare_PC (s : State) (r m : Byte) : (s.compare r m).PC = s.PC := rfl
@[simp] theorem compare_SP (s : State) (r m : Byte) : (s.compare r m).SP = s.SP := rfl
@[simp] theorem compare_N (s : State) (r m : Byte) : (s.compare r m).N = (BitVec.ofInt 8 (r.toNat - m.toNat)).getLsbD 7 := rfl
@[simp] theorem compare_V (s : State) (r m : Byte) : (s.compare r m).V = s.V := rfl
@[simp] theorem compare_Z (s : State) (r m : Byte) : (s.compare r m).Z = (BitVec.ofInt 8 (r.toNat - m.toNat) == 0) := rfl
@[simp] theorem compare_C (s : State) (r m : Byte) : (s.compare r m).C = decide (r.toNat ≥ m.toNat) := rfl
@[simp] theorem compare_running (s : State) (r m : Byte) : (s.compare r m).running = s.running := rfl
@[simp] theorem compare_cycles (s : State) (r m : Byte) : (s.compare r m).cycles = s.cycles := rfl
@[simp] theorem compare_steps (s : State) (r m : Byte) : (s.compare r m).steps = s.steps := rfl
@[simp] theorem compare_mem (s : State) (r m : Byte) : (s.compare r m).mem = s.mem := rfl

/-! ## The end of ADC and SBC -/

@[simp] theorem setArith_A (s : State) (r : ArithResult) : (s.setArith r).A = r.result := rfl
@[simp] theorem setArith_X (s : State) (r : ArithResult) : (s.setArith r).X = s.X := rfl
@[simp] theorem setArith_Y (s : State) (r : ArithResult) : (s.setArith r).Y = s.Y := rfl
@[simp] theorem setArith_PC (s : State) (r : ArithResult) : (s.setArith r).PC = s.PC := rfl
@[simp] theorem setArith_SP (s : State) (r : ArithResult) : (s.setArith r).SP = s.SP := rfl
@[simp] theorem setArith_N (s : State) (r : ArithResult) : (s.setArith r).N = r.result.getLsbD 7 := rfl
@[simp] theorem setArith_V (s : State) (r : ArithResult) : (s.setArith r).V = r.overflow := rfl
@[simp] theorem setArith_Z (s : State) (r : ArithResult) : (s.setArith r).Z = (r.result == 0) := rfl
@[simp] theorem setArith_C (s : State) (r : ArithResult) : (s.setArith r).C = r.carry := rfl
@[simp] theorem setArith_running (s : State) (r : ArithResult) : (s.setArith r).running = s.running := rfl
@[simp] theorem setArith_cycles (s : State) (r : ArithResult) : (s.setArith r).cycles = s.cycles := rfl
@[simp] theorem setArith_steps (s : State) (r : ArithResult) : (s.setArith r).steps = s.steps := rfl
@[simp] theorem setArith_mem (s : State) (r : ArithResult) : (s.setArith r).mem = s.mem := rfl

/-! ## A register load of A -/

@[simp] theorem loadA_A (s : State) (v : Byte) : (s.loadA v).A = v := rfl
@[simp] theorem loadA_X (s : State) (v : Byte) : (s.loadA v).X = s.X := rfl
@[simp] theorem loadA_Y (s : State) (v : Byte) : (s.loadA v).Y = s.Y := rfl
@[simp] theorem loadA_PC (s : State) (v : Byte) : (s.loadA v).PC = s.PC := rfl
@[simp] theorem loadA_SP (s : State) (v : Byte) : (s.loadA v).SP = s.SP := rfl
@[simp] theorem loadA_N (s : State) (v : Byte) : (s.loadA v).N = v.getLsbD 7 := rfl
@[simp] theorem loadA_V (s : State) (v : Byte) : (s.loadA v).V = s.V := rfl
@[simp] theorem loadA_Z (s : State) (v : Byte) : (s.loadA v).Z = (v == 0) := rfl
@[simp] theorem loadA_C (s : State) (v : Byte) : (s.loadA v).C = s.C := rfl
@[simp] theorem loadA_running (s : State) (v : Byte) : (s.loadA v).running = s.running := rfl
@[simp] theorem loadA_cycles (s : State) (v : Byte) : (s.loadA v).cycles = s.cycles := rfl
@[simp] theorem loadA_steps (s : State) (v : Byte) : (s.loadA v).steps = s.steps := rfl
@[simp] theorem loadA_mem (s : State) (v : Byte) : (s.loadA v).mem = s.mem := rfl

/-! ## A register load of X -/

@[simp] theorem loadX_A (s : State) (v : Byte) : (s.loadX v).A = s.A := rfl
@[simp] theorem loadX_X (s : State) (v : Byte) : (s.loadX v).X = v := rfl
@[simp] theorem loadX_Y (s : State) (v : Byte) : (s.loadX v).Y = s.Y := rfl
@[simp] theorem loadX_PC (s : State) (v : Byte) : (s.loadX v).PC = s.PC := rfl
@[simp] theorem loadX_SP (s : State) (v : Byte) : (s.loadX v).SP = s.SP := rfl
@[simp] theorem loadX_N (s : State) (v : Byte) : (s.loadX v).N = v.getLsbD 7 := rfl
@[simp] theorem loadX_V (s : State) (v : Byte) : (s.loadX v).V = s.V := rfl
@[simp] theorem loadX_Z (s : State) (v : Byte) : (s.loadX v).Z = (v == 0) := rfl
@[simp] theorem loadX_C (s : State) (v : Byte) : (s.loadX v).C = s.C := rfl
@[simp] theorem loadX_running (s : State) (v : Byte) : (s.loadX v).running = s.running := rfl
@[simp] theorem loadX_cycles (s : State) (v : Byte) : (s.loadX v).cycles = s.cycles := rfl
@[simp] theorem loadX_steps (s : State) (v : Byte) : (s.loadX v).steps = s.steps := rfl
@[simp] theorem loadX_mem (s : State) (v : Byte) : (s.loadX v).mem = s.mem := rfl

/-! ## A register load of Y -/

@[simp] theorem loadY_A (s : State) (v : Byte) : (s.loadY v).A = s.A := rfl
@[simp] theorem loadY_X (s : State) (v : Byte) : (s.loadY v).X = s.X := rfl
@[simp] theorem loadY_Y (s : State) (v : Byte) : (s.loadY v).Y = v := rfl
@[simp] theorem loadY_PC (s : State) (v : Byte) : (s.loadY v).PC = s.PC := rfl
@[simp] theorem loadY_SP (s : State) (v : Byte) : (s.loadY v).SP = s.SP := rfl
@[simp] theorem loadY_N (s : State) (v : Byte) : (s.loadY v).N = v.getLsbD 7 := rfl
@[simp] theorem loadY_V (s : State) (v : Byte) : (s.loadY v).V = s.V := rfl
@[simp] theorem loadY_Z (s : State) (v : Byte) : (s.loadY v).Z = (v == 0) := rfl
@[simp] theorem loadY_C (s : State) (v : Byte) : (s.loadY v).C = s.C := rfl
@[simp] theorem loadY_running (s : State) (v : Byte) : (s.loadY v).running = s.running := rfl
@[simp] theorem loadY_cycles (s : State) (v : Byte) : (s.loadY v).cycles = s.cycles := rfl
@[simp] theorem loadY_steps (s : State) (v : Byte) : (s.loadY v).steps = s.steps := rfl
@[simp] theorem loadY_mem (s : State) (v : Byte) : (s.loadY v).mem = s.mem := rfl

/-! ## Branch -/

@[simp] theorem branch_A (s : State) (taken : Bool) (d : Byte) : (s.branch taken d).A = s.A := rfl
@[simp] theorem branch_X (s : State) (taken : Bool) (d : Byte) : (s.branch taken d).X = s.X := rfl
@[simp] theorem branch_Y (s : State) (taken : Bool) (d : Byte) : (s.branch taken d).Y = s.Y := rfl
@[simp] theorem branch_PC (s : State) (taken : Bool) (d : Byte) : (s.branch taken d).PC = (if taken then s.branchTarget d else s.afterBranch) := rfl
@[simp] theorem branch_SP (s : State) (taken : Bool) (d : Byte) : (s.branch taken d).SP = s.SP := rfl
@[simp] theorem branch_N (s : State) (taken : Bool) (d : Byte) : (s.branch taken d).N = s.N := rfl
@[simp] theorem branch_V (s : State) (taken : Bool) (d : Byte) : (s.branch taken d).V = s.V := rfl
@[simp] theorem branch_Z (s : State) (taken : Bool) (d : Byte) : (s.branch taken d).Z = s.Z := rfl
@[simp] theorem branch_C (s : State) (taken : Bool) (d : Byte) : (s.branch taken d).C = s.C := rfl
@[simp] theorem branch_running (s : State) (taken : Bool) (d : Byte) : (s.branch taken d).running = s.running := rfl
@[simp] theorem branch_cycles (s : State) (taken : Bool) (d : Byte) : (s.branch taken d).cycles = s.cycles + branchCost taken s.afterBranch (s.branchTarget d) := rfl
@[simp] theorem branch_steps (s : State) (taken : Bool) (d : Byte) : (s.branch taken d).steps = s.steps + 1 := rfl
@[simp] theorem branch_mem (s : State) (taken : Bool) (d : Byte) : (s.branch taken d).mem = s.mem := rfl

end Sys2Proof.Machine.State
end

