-- ==== Sys2Proof/Laws/Ops.lean ====
section
/-! SUPPORT. One law for each shared operation over memory, the stack and the program counter. -/

namespace Sys2Proof.Machine

theorem toNat_stackAddr (sp : Byte) : (stackAddr sp).toNat = 256 + sp.toNat := by
  have h := sp.isLt
  rw [stackAddr, BitVec.toNat_add, toNat_zext8, show (0x0100 : Addr).toNat = 256 from rfl]
  omega

/-- Distinct stack pointers designate distinct slots. -/
theorem stackAddr_injective {p q : Byte} (h : stackAddr p = stackAddr q) : p = q := by
  have := congrArg BitVec.toNat h
  rw [toNat_stackAddr, toNat_stackAddr] at this
  exact BitVec.eq_of_toNat_eq (by omega)

namespace State

/-- A store changes the byte at its address and no other. -/
theorem read_after_store (s : State) (a b : Addr) (v : Byte) :
    (s.memWrite a v).mem.read b.toNat = if b = a then v else s.mem.read b.toNat := by
  simp only [memWrite_mem, Memory.read_write, BitVec.toNat_inj]

theorem wf_memWrite {s : State} (a : Addr) (v : Byte) (h : s.mem.wf) : (s.memWrite a v).mem.wf :=
  Memory.wf_write v h a.isLt

theorem wf_push {s : State} (v : Byte) (h : s.mem.wf) : (s.push v).mem.wf :=
  Memory.wf_write v h (stackAddr s.SP).isLt

@[simp] theorem pop_fst (s : State) : s.pop.1 = s.memRead (stackAddr (s.SP + 1)) := rfl

@[simp] theorem retire_eq_transfer (s : State) (bytes : Addr) (cost : Nat) :
    s.retire bytes cost = s.transfer (s.PC + bytes) cost := rfl

/-- What a branch that starts at PC does: it goes on, or goes to its target at one or two cycles more. -/
theorem branch_cases (s : State) (taken : Bool) (d : Byte) :
    (taken = false ∧ s.branch taken d = s.transfer s.afterBranch 2) ∨
    (taken = true ∧ highByte s.afterBranch = highByte (s.branchTarget d) ∧
      s.branch taken d = s.transfer (s.branchTarget d) 3) ∨
    (taken = true ∧ highByte s.afterBranch ≠ highByte (s.branchTarget d) ∧
      s.branch taken d = s.transfer (s.branchTarget d) 4) := by
  cases taken
  · exact .inl ⟨rfl, rfl⟩
  · by_cases h : highByte s.afterBranch = highByte (s.branchTarget d)
    · exact .inr (.inl ⟨rfl, h, by simp [branch, branchCost, h]⟩)
    · exact .inr (.inr ⟨rfl, h, by simp [branch, branchCost, h]⟩)

end State

end Sys2Proof.Machine
end

