-- ==== Sys2Proof/Laws/PerInstr.lean ====
section
/-! SUPPORT. Facts about every instruction as syntax, one lemma per constructor. -/

namespace Sys2Proof.Laws.EncodeLength

/-- An encoding is as long as its first byte, the opcode, says (spec/30_encoding.md R80). -/
def Statement (i : Instr) : Prop :=
  i.wf = true → ∃ op operands, encode i = op :: operands ∧ (encode i).length = lengthOfOpcode op

theorem ldaImm (v : Byte) : Statement (.ldaImm v) := fun _ => ⟨_, _, rfl, rfl⟩
theorem ldaZp (z : Byte) : Statement (.ldaZp z) := fun _ => ⟨_, _, rfl, rfl⟩
theorem ldaZpx (z : Byte) : Statement (.ldaZpx z) := fun _ => ⟨_, _, rfl, rfl⟩
theorem ldaAbs (addr : Addr) : Statement (.ldaAbs addr) := fun _ => ⟨_, _, rfl, rfl⟩
theorem ldxImm (v : Byte) : Statement (.ldxImm v) := fun _ => ⟨_, _, rfl, rfl⟩
theorem ldxZp (z : Byte) : Statement (.ldxZp z) := fun _ => ⟨_, _, rfl, rfl⟩
theorem ldyImm (v : Byte) : Statement (.ldyImm v) := fun _ => ⟨_, _, rfl, rfl⟩
theorem ldyZp (z : Byte) : Statement (.ldyZp z) := fun _ => ⟨_, _, rfl, rfl⟩
theorem staZp (z : Byte) : Statement (.staZp z) := fun _ => ⟨_, _, rfl, rfl⟩
theorem staZpx (z : Byte) : Statement (.staZpx z) := fun _ => ⟨_, _, rfl, rfl⟩
theorem staAbs (addr : Addr) : Statement (.staAbs addr) := fun _ => ⟨_, _, rfl, rfl⟩
theorem stxZp (z : Byte) : Statement (.stxZp z) := fun _ => ⟨_, _, rfl, rfl⟩
theorem styZp (z : Byte) : Statement (.styZp z) := fun _ => ⟨_, _, rfl, rfl⟩
theorem adcImm (v : Byte) : Statement (.adcImm v) := fun _ => ⟨_, _, rfl, rfl⟩
theorem adcZp (z : Byte) : Statement (.adcZp z) := fun _ => ⟨_, _, rfl, rfl⟩
theorem sbcImm (v : Byte) : Statement (.sbcImm v) := fun _ => ⟨_, _, rfl, rfl⟩
theorem andImm (v : Byte) : Statement (.andImm v) := fun _ => ⟨_, _, rfl, rfl⟩
theorem oraImm (v : Byte) : Statement (.oraImm v) := fun _ => ⟨_, _, rfl, rfl⟩
theorem eorImm (v : Byte) : Statement (.eorImm v) := fun _ => ⟨_, _, rfl, rfl⟩
theorem cmpImm (v : Byte) : Statement (.cmpImm v) := fun _ => ⟨_, _, rfl, rfl⟩
theorem cmpZp (z : Byte) : Statement (.cmpZp z) := fun _ => ⟨_, _, rfl, rfl⟩
theorem cmpZpx (z : Byte) : Statement (.cmpZpx z) := fun _ => ⟨_, _, rfl, rfl⟩
theorem cpxImm (v : Byte) : Statement (.cpxImm v) := fun _ => ⟨_, _, rfl, rfl⟩
theorem cpxZp (z : Byte) : Statement (.cpxZp z) := fun _ => ⟨_, _, rfl, rfl⟩
theorem cpyImm (v : Byte) : Statement (.cpyImm v) := fun _ => ⟨_, _, rfl, rfl⟩
theorem cpyZp (z : Byte) : Statement (.cpyZp z) := fun _ => ⟨_, _, rfl, rfl⟩
theorem inx : Statement .inx := fun _ => ⟨_, _, rfl, rfl⟩
theorem iny : Statement .iny := fun _ => ⟨_, _, rfl, rfl⟩
theorem dex : Statement .dex := fun _ => ⟨_, _, rfl, rfl⟩
theorem dey : Statement .dey := fun _ => ⟨_, _, rfl, rfl⟩
theorem clc : Statement .clc := fun _ => ⟨_, _, rfl, rfl⟩
theorem sec : Statement .sec := fun _ => ⟨_, _, rfl, rfl⟩
theorem tax : Statement .tax := fun _ => ⟨_, _, rfl, rfl⟩
theorem tay : Statement .tay := fun _ => ⟨_, _, rfl, rfl⟩
theorem txa : Statement .txa := fun _ => ⟨_, _, rfl, rfl⟩
theorem tya : Statement .tya := fun _ => ⟨_, _, rfl, rfl⟩
theorem jmp (t : Addr) : Statement (.jmp t) := fun _ => ⟨_, _, rfl, rfl⟩
theorem jsr (t : Addr) : Statement (.jsr t) := fun _ => ⟨_, _, rfl, rfl⟩
theorem rts : Statement .rts := fun _ => ⟨_, _, rfl, rfl⟩
theorem bcc (d : Byte) : Statement (.bcc d) := fun _ => ⟨_, _, rfl, rfl⟩
theorem bcs (d : Byte) : Statement (.bcs d) := fun _ => ⟨_, _, rfl, rfl⟩
theorem beq (d : Byte) : Statement (.beq d) := fun _ => ⟨_, _, rfl, rfl⟩
theorem bne (d : Byte) : Statement (.bne d) := fun _ => ⟨_, _, rfl, rfl⟩
theorem bmi (d : Byte) : Statement (.bmi d) := fun _ => ⟨_, _, rfl, rfl⟩
theorem bpl (d : Byte) : Statement (.bpl d) := fun _ => ⟨_, _, rfl, rfl⟩
theorem brk : Statement .brk := fun _ => ⟨_, _, rfl, rfl⟩
theorem nop : Statement .nop := fun _ => ⟨_, _, rfl, rfl⟩
theorem unimplemented (op : Byte) : Statement (.unimplemented op) := fun h =>
  ⟨op, [], rfl, by simp [encode, lengthOfOpcode, Option.isNone_iff_eq_none.mp h]⟩

end Sys2Proof.Laws.EncodeLength
end

