-- ==== Sys2Proof/Laws/Step.lean ====
section
/-! SUPPORT. What one step can do, and how a run begins with one. -/

namespace Sys2Proof.Machine

/-- A HALTED machine stays as it is. -/
theorem step_halted {s : State} (h : s.running = false) : step s = .next s := by
  simp [step, h]

/-- A RUNNING machine executes the instruction at PC. -/
theorem step_running {s : State} (h : s.running = true) : step s = exec s.fetchInstr s := by
  simp [step, h]

/-- What one step can do, in full. -/
theorem step_cases {s t : State} (h : step s = .next t) :
    (s.running = false ∧ t = s) ∨ (s.running = true ∧ exec s.fetchInstr s = .next t) := by
  cases hr : s.running
  · rw [step_halted hr] at h
    exact .inl ⟨rfl, by injection h with h; exact h.symm⟩
  · exact .inr ⟨rfl, by rwa [step_running hr] at h⟩

/-- A run of `k + 1` steps is one step and a run of `k`. -/
theorem run_succ {s t : State} (h : step s = .next t) (k : Nat) : core.run (k + 1) s = core.run k t := by
  have h' : core.step s = .next t := h
  simp only [Host.Core.run, h']

end Sys2Proof.Machine
end

