-- ==== Sys2Proof/Tests/Slice0.lean ====
section
/-! SUPPORT. Tests: expected values are the vectors of spec/95_test_vectors.md (sections named at each group) and the
worked examples of the instruction rules, and the witnesses of the statements' hypotheses. -/

namespace Sys2Proof.Tests

open Sys2Proof Sys2Proof.Machine

/-! ## Helpers -/

/-- The launch state with bytes placed at an address, and PC there (95_test_vectors.md, Conventions). -/
def at_ (pc : Addr) (bytes : List Byte) : State :=
  { State.reset with PC := pc, mem := Memory.writeBytes [] pc.toNat bytes }

/-- A state with one more byte of memory set. -/
def poke (s : State) (a : Addr) (v : Byte) : State := s.memWrite a v

/-- One step leads to a state. -/
def stepsTo (s t : State) : Bool :=
  match step s with
  | .next u => decide (u = t)
  | .fault _ | .refused _ => false

/-- One step leads to a state with a property. -/
def stepsWith (s : State) (p : State → Bool) : Bool :=
  match step s with
  | .next u => p u
  | .fault _ | .refused _ => false

/-- The first instruction of a byte list. -/
def decodesTo (bytes : List Byte) (i : Instr) : Bool :=
  match decode bytes with
  | .ok (j, []) => decide (j = i)
  | .ok (_, _ :: _) | .error _ => false

/-- The program and the line map of some source lines. -/
def assemblesTo (src : List String) (bytes : List Byte) (map : List (Nat × Nat)) : Bool :=
  match assemble (src.map String.toList) with
  | .ok out => decide (out = { bytecode := bytes, addressToLine := map })
  | .error _ => false

/-- A source that the assembler refuses. -/
def assemblyRefused (src : List String) : Bool :=
  match assemble (src.map String.toList) with
  | .ok _ => false
  | .error _ => true

/-! ## WellFormed: the check refuses a catch-all term that carries an opcode of the table -/

theorem test_wf_refuses_listed_opcode : (Instr.unimplemented 0xA9).wf = false := by decide
theorem test_wf_accepts_unlisted_opcode : (Instr.unimplemented 0xFF).wf = true := by decide

/-! ## Decoding: words written out from the encodings of 30_encoding.md R81, R83 -/

theorem test_decode_load_store_1 : (decodesTo [0xA9, 0x12] (.ldaImm 0x12) &&
    decodesTo [0xA5, 0x34] (.ldaZp 0x34) &&
    decodesTo [0xB5, 0x34] (.ldaZpx 0x34) &&
    decodesTo [0xAD, 0x34, 0x12] (.ldaAbs 0x1234) &&
    decodesTo [0xA2, 0x12] (.ldxImm 0x12) &&
    decodesTo [0xA6, 0x34] (.ldxZp 0x34) &&
    decodesTo [0xA0, 0x12] (.ldyImm 0x12)) = true := by decide
theorem test_decode_load_store_2 : (decodesTo [0xA4, 0x34] (.ldyZp 0x34) &&
    decodesTo [0x85, 0x34] (.staZp 0x34) &&
    decodesTo [0x95, 0x34] (.staZpx 0x34) &&
    decodesTo [0x8D, 0x34, 0x12] (.staAbs 0x1234) &&
    decodesTo [0x86, 0x34] (.stxZp 0x34) &&
    decodesTo [0x84, 0x34] (.styZp 0x34)) = true := by decide
theorem test_decode_arithmetic_1 : (decodesTo [0x69, 0x12] (.adcImm 0x12) &&
    decodesTo [0x65, 0x34] (.adcZp 0x34) &&
    decodesTo [0xE9, 0x12] (.sbcImm 0x12) &&
    decodesTo [0x29, 0x12] (.andImm 0x12) &&
    decodesTo [0x09, 0x12] (.oraImm 0x12) &&
    decodesTo [0x49, 0x12] (.eorImm 0x12) &&
    decodesTo [0xC9, 0x12] (.cmpImm 0x12)) = true := by decide
theorem test_decode_arithmetic_2 : (decodesTo [0xC5, 0x34] (.cmpZp 0x34) &&
    decodesTo [0xD5, 0x34] (.cmpZpx 0x34) &&
    decodesTo [0xE0, 0x12] (.cpxImm 0x12) &&
    decodesTo [0xE4, 0x34] (.cpxZp 0x34) &&
    decodesTo [0xC0, 0x12] (.cpyImm 0x12) &&
    decodesTo [0xC4, 0x34] (.cpyZp 0x34)) = true := by decide
theorem test_decode_register_1 : (decodesTo [0xE8] (.inx) &&
    decodesTo [0xC8] (.iny) &&
    decodesTo [0xCA] (.dex) &&
    decodesTo [0x88] (.dey) &&
    decodesTo [0x18] (.clc)) = true := by decide
theorem test_decode_register_2 : (decodesTo [0x38] (.sec) &&
    decodesTo [0xAA] (.tax) &&
    decodesTo [0xA8] (.tay) &&
    decodesTo [0x8A] (.txa) &&
    decodesTo [0x98] (.tya)) = true := by decide
theorem test_decode_control_1 : (decodesTo [0x4C, 0x34, 0x12] (.jmp 0x1234) &&
    decodesTo [0x20, 0x34, 0x12] (.jsr 0x1234) &&
    decodesTo [0x60] (.rts) &&
    decodesTo [0x90, 0x0E] (.bcc 0x0E) &&
    decodesTo [0xB0, 0x0E] (.bcs 0x0E) &&
    decodesTo [0xF0, 0x0E] (.beq 0x0E)) = true := by decide
theorem test_decode_control_2 : (decodesTo [0xD0, 0x0E] (.bne 0x0E) &&
    decodesTo [0x30, 0x0E] (.bmi 0x0E) &&
    decodesTo [0x10, 0x0E] (.bpl 0x0E) &&
    decodesTo [0x00] (.brk) &&
    decodesTo [0xEA] (.nop)) = true := by decide
theorem test_decode_bits : decodesTo [0b10101101, 0b00110100, 0b00010010] (.ldaAbs 0x1234) = true := by decide
theorem test_decode_unlisted : (decodesTo [0xFF] (.unimplemented 0xFF) && decodesTo [0xBD] (.unimplemented 0xBD) &&
    decodesTo [0x40] (.unimplemented 0x40)) = true := by decide
theorem test_decode_rejects_by_name : (match decode [0xAD, 0x34] with
    | .error e => decide (e = .truncated 0xAD) | .ok _ => false) = true := by decide
theorem test_table_opcodes_distinct : instructionTable.Pairwise (fun r q => r.opcode ≠ q.opcode) := by decide
theorem test_table_has_47_rows : instructionTable.length = 47 := by decide
theorem test_decodeTableWord : decodeTableWord 24 0x1234AD = some (.ldaAbs 0x1234) ∧
    decodeTableWord 8 0x1234AD = some (.ldaAbs 0) := by decide
theorem test_withFetchWord : stepsWith (State.reset.withFetchWord 16 0x05A9) (fun t => t.A == 5 && t.PC == 2) = true := by
  decide

/-! ## Loads and stores (95_test_vectors.md section 3.1) -/

theorem test_ldaImm_zero :
  let s : State := { at_ 0x0200 [0xA9, 0x00] with A := 0x55, N := true }
  stepsTo s { s with A := 0x00, N := false, Z := true, PC := 0x0202, cycles := 2, steps := 1 } = true := by decide
theorem test_ldaImm_keeps_C_V :
  let s : State := { at_ 0x0200 [0xA9, 0x7F] with C := true, V := true }
  stepsTo s { s with A := 0x7F, PC := 0x0202, cycles := 2, steps := 1 } = true := by decide
theorem test_ldaZp :
  let s : State := poke (at_ 0x0200 [0xA5, 0x10]) 0x0010 0xC3
  stepsTo s { s with A := 0xC3, N := true, PC := 0x0202, cycles := 3, steps := 1 } = true := by decide
theorem test_ldaZp_top_of_page :
  let s : State := poke (poke (at_ 0x0200 [0xA5, 0xFF]) 0x00FF 0x01) 0x01FF 0x99
  stepsTo s { s with A := 0x01, PC := 0x0202, cycles := 3, steps := 1 } = true := by decide
theorem test_ldaZpx_wraps :
  let s : State := { poke (poke (at_ 0x0200 [0xB5, 0xFF]) 0x0001 0x77) 0x0101 0x99 with X := 0x02 }
  stepsTo s { s with A := 0x77, PC := 0x0202, cycles := 4, steps := 1 } = true := by decide
theorem test_ldaZpx_wraps_to_zero :
  let s : State := { poke (at_ 0x0200 [0xB5, 0x80]) 0x0100 0x11 with X := 0x80, A := 0x33 }
  stepsTo s { s with A := 0x00, Z := true, PC := 0x0202, cycles := 4, steps := 1 } = true := by decide
theorem test_ldaAbs :
  let s : State := poke (at_ 0x0200 [0xAD, 0x34, 0x12]) 0x1234 0xFE
  stepsTo s { s with A := 0xFE, N := true, PC := 0x0203, cycles := 4, steps := 1 } = true := by decide
theorem test_ldaAbs_straddles_top :
  let s : State := poke (poke (at_ 0xFFFE [0xAD, 0x10]) 0x0000 0x00) 0x0010 0x66
  stepsTo s { s with A := 0x66, PC := 0x0001, cycles := 4, steps := 1 } = true := by decide
theorem test_ldxImm :
  let s : State := at_ 0x0200 [0xA2, 0xFF]
  stepsTo s { s with X := 0xFF, N := true, PC := 0x0202, cycles := 2, steps := 1 } = true := by decide
theorem test_ldxZp :
  let s : State := { at_ 0x0200 [0xA6, 0x20] with X := 0x09 }
  stepsTo s { s with X := 0x00, Z := true, PC := 0x0202, cycles := 3, steps := 1 } = true := by decide
theorem test_ldyImm :
  let s : State := { at_ 0x0200 [0xA0, 0x01] with Z := true }
  stepsTo s { s with Y := 0x01, Z := false, PC := 0x0202, cycles := 2, steps := 1 } = true := by decide
theorem test_ldyZp :
  let s : State := poke (at_ 0x0200 [0xA4, 0x21]) 0x0021 0x90
  stepsTo s { s with Y := 0x90, N := true, PC := 0x0202, cycles := 3, steps := 1 } = true := by decide
theorem test_staZp_writes_no_flag :
  let s : State := { at_ 0x0200 [0x85, 0x10] with A := 0x00, N := true }
  stepsTo s { s with PC := 0x0202, cycles := 3, steps := 1 } = true := by decide
theorem test_staZp :
  let s : State := { at_ 0x0200 [0x85, 0x44] with A := 0xAB }
  stepsTo s { poke s 0x0044 0xAB with PC := 0x0202, cycles := 3, steps := 1 } = true := by decide
theorem test_staZpx :
  let s : State := { at_ 0x0200 [0x95, 0x10] with A := 0x3C, X := 0x04 }
  stepsTo s { poke s 0x0014 0x3C with PC := 0x0202, cycles := 4, steps := 1 } = true := by decide
theorem test_staZpx_wraps :
  let s : State := { at_ 0x0200 [0x95, 0xFF] with A := 0xAA, X := 0x02 }
  stepsTo s { poke s 0x0001 0xAA with PC := 0x0202, cycles := 4, steps := 1 } = true := by decide
theorem test_staAbs :
  let s : State := { at_ 0x0200 [0x8D, 0x00, 0x03] with A := 0x0E }
  stepsTo s { poke s 0x0300 0x0E with PC := 0x0203, cycles := 4, steps := 1 } = true := by decide
theorem test_staAbs_stack_page :
  let s : State := { at_ 0x0200 [0x8D, 0xFE, 0x01] with A := 0x11 }
  stepsTo s { poke s 0x01FE 0x11 with PC := 0x0203, cycles := 4, steps := 1 } = true := by decide
theorem test_stxZp :
  let s : State := { at_ 0x0200 [0x86, 0x10] with X := 0x05 }
  stepsTo s { poke s 0x0010 0x05 with PC := 0x0202, cycles := 3, steps := 1 } = true := by decide
theorem test_styZp :
  let s : State := { at_ 0x0200 [0x84, 0x11] with Y := 0x80 }
  stepsTo s { poke s 0x0011 0x80 with PC := 0x0202, cycles := 3, steps := 1 } = true := by decide

/-! ## Arithmetic, logic, compare (95_test_vectors.md section 3.2) -/

theorem test_adcImm_source_law :
  let s : State := { at_ 0x0200 [0x69, 0x01] with A := 0xFF }
  stepsTo s { s with A := 0x00, C := true, Z := true, PC := 0x0202, cycles := 2, steps := 1 } = true := by decide
theorem test_adcImm_carry_in :
  let s : State := { at_ 0x0200 [0x69, 0x00] with A := 0x7F, C := true }
  stepsTo s { s with A := 0x80, N := true, V := true, C := false, PC := 0x0202, cycles := 2, steps := 1 } = true := by decide
theorem test_adcZp :
  let s : State := { poke (at_ 0x0200 [0x65, 0x10]) 0x0010 0x03 with A := 0x09 }
  stepsTo s { s with A := 0x0C, PC := 0x0202, cycles := 3, steps := 1 } = true := by decide
theorem test_adcZp_all_ones :
  let s : State := { poke (at_ 0x0200 [0x65, 0x10]) 0x0010 0xFF with A := 0xFF, C := true }
  stepsTo s { s with A := 0xFF, N := true, C := true, V := false, PC := 0x0202, cycles := 3, steps := 1 } = true := by decide
theorem test_sbcImm_overflow :
  let s : State := { at_ 0x0200 [0xE9, 0xB0] with A := 0x50, C := true }
  stepsTo s { s with A := 0xA0, N := true, V := true, C := false, PC := 0x0202, cycles := 2, steps := 1 } = true := by decide
theorem test_sbcImm_equal_borrow_in :
  let s : State := { at_ 0x0200 [0xE9, 0x05] with A := 0x05, C := false }
  stepsTo s { s with A := 0xFF, N := true, C := true, PC := 0x0202, cycles := 2, steps := 1 } = true := by decide
theorem test_andImm :
  let s : State := { at_ 0x0200 [0x29, 0x0F] with A := 0xF0 }
  stepsTo s { s with A := 0x00, Z := true, PC := 0x0202, cycles := 2, steps := 1 } = true := by decide
theorem test_andImm_keeps_C_V :
  let s : State := { at_ 0x0200 [0x29, 0xF0] with A := 0xFF, C := true, V := true }
  stepsTo s { s with A := 0xF0, N := true, PC := 0x0202, cycles := 2, steps := 1 } = true := by decide
theorem test_oraImm :
  let s : State := { at_ 0x0200 [0x09, 0x80] with A := 0x01 }
  stepsTo s { s with A := 0x81, N := true, PC := 0x0202, cycles := 2, steps := 1 } = true := by decide
theorem test_oraImm_zero :
  let s : State := { at_ 0x0200 [0x09, 0x00] with A := 0x00, N := true }
  stepsTo s { s with A := 0x00, N := false, Z := true, PC := 0x0202, cycles := 2, steps := 1 } = true := by decide
theorem test_eorImm_same :
  let s : State := { at_ 0x0200 [0x49, 0xFF] with A := 0xFF }
  stepsTo s { s with A := 0x00, Z := true, PC := 0x0202, cycles := 2, steps := 1 } = true := by decide
theorem test_eorImm :
  let s : State := { at_ 0x0200 [0x49, 0xFF] with A := 0x0F }
  stepsTo s { s with A := 0xF0, N := true, PC := 0x0202, cycles := 2, steps := 1 } = true := by decide
theorem test_cmpImm_below :
  let s : State := { at_ 0x0200 [0xC9, 0x05] with A := 0x03 }
  stepsTo s { s with C := false, N := true, Z := false, PC := 0x0202, cycles := 2, steps := 1 } = true := by decide
theorem test_cmpImm_keeps_V :
  let s : State := { at_ 0x0200 [0xC9, 0xFF] with A := 0x00, C := true, V := true }
  stepsTo s { s with C := false, N := false, Z := false, PC := 0x0202, cycles := 2, steps := 1 } = true := by decide
theorem test_cmpZp :
  let s : State := { poke (at_ 0x0200 [0xC5, 0x10]) 0x0010 0x01 with A := 0x80 }
  stepsTo s { s with C := true, PC := 0x0202, cycles := 3, steps := 1 } = true := by decide
theorem test_cmpZpx_wraps :
  let s : State := { poke (at_ 0x0200 [0xD5, 0xFF]) 0x0001 0xAA with A := 0xAA, X := 0x02 }
  stepsTo s { s with Z := true, C := true, PC := 0x0202, cycles := 4, steps := 1 } = true := by decide
theorem test_cpxImm :
  let s : State := { at_ 0x0200 [0xE0, 0x10] with X := 0x10 }
  stepsTo s { s with Z := true, C := true, PC := 0x0202, cycles := 2, steps := 1 } = true := by decide
theorem test_cpxZp :
  let s : State := { poke (at_ 0x0200 [0xE4, 0x10]) 0x0010 0x02 with X := 0x01 }
  stepsTo s { s with N := true, C := false, PC := 0x0202, cycles := 3, steps := 1 } = true := by decide
theorem test_cpyImm :
  let s : State := { at_ 0x0200 [0xC0, 0xAB] with Y := 0xAA, C := true }
  stepsTo s { s with N := true, C := false, PC := 0x0202, cycles := 2, steps := 1 } = true := by decide
theorem test_cpyZp :
  let s : State := { at_ 0x0200 [0xC4, 0x10] with Y := 0xFF }
  stepsTo s { s with N := true, C := true, PC := 0x0202, cycles := 3, steps := 1 } = true := by decide

/-! ## Register and flag instructions (95_test_vectors.md section 3.3) -/

theorem test_inx_wraps :
  let s : State := { at_ 0x0200 [0xE8] with X := 0xFF }
  stepsTo s { s with X := 0x00, Z := true, PC := 0x0201, cycles := 2, steps := 1 } = true := by decide
theorem test_inx_to_negative :
  let s : State := { at_ 0x0200 [0xE8] with X := 0x7F }
  stepsTo s { s with X := 0x80, N := true, PC := 0x0201, cycles := 2, steps := 1 } = true := by decide
theorem test_iny :
  let s : State := { at_ 0x0200 [0xC8] with Z := true }
  stepsTo s { s with Y := 0x01, Z := false, PC := 0x0201, cycles := 2, steps := 1 } = true := by decide
theorem test_dex_wraps :
  let s : State := at_ 0x0200 [0xCA]
  stepsTo s { s with X := 0xFF, N := true, PC := 0x0201, cycles := 2, steps := 1 } = true := by decide
theorem test_dey :
  let s : State := { at_ 0x0200 [0x88] with Y := 0x80, N := true }
  stepsTo s { s with Y := 0x7F, N := false, PC := 0x0201, cycles := 2, steps := 1 } = true := by decide
theorem test_clc :
  let s : State := { at_ 0x0200 [0x18] with C := true, N := true, Z := true, V := true }
  stepsTo s { s with C := false, PC := 0x0201, cycles := 2, steps := 1 } = true := by decide
theorem test_sec :
  let s : State := at_ 0x0200 [0x38]
  stepsTo s { s with C := true, PC := 0x0201, cycles := 2, steps := 1 } = true := by decide
theorem test_tax :
  let s : State := { at_ 0x0200 [0xAA] with A := 0x80, X := 0x01 }
  stepsTo s { s with X := 0x80, N := true, PC := 0x0201, cycles := 2, steps := 1 } = true := by decide
theorem test_tay :
  let s : State := { at_ 0x0200 [0xA8] with Y := 0x05 }
  stepsTo s { s with Y := 0x00, Z := true, PC := 0x0201, cycles := 2, steps := 1 } = true := by decide
theorem test_txa :
  let s : State := { at_ 0x0200 [0x8A] with X := 0x7F, A := 0x80, N := true }
  stepsTo s { s with A := 0x7F, N := false, PC := 0x0201, cycles := 2, steps := 1 } = true := by decide
theorem test_tya :
  let s : State := { at_ 0x0200 [0x98] with Y := 0xFF }
  stepsTo s { s with A := 0xFF, N := true, PC := 0x0201, cycles := 2, steps := 1 } = true := by decide

/-! ## Control transfer (95_test_vectors.md section 3.4) -/

theorem test_jmp :
  let s : State := at_ 0x0202 [0x4C, 0x00, 0x02]
  stepsTo s { s with PC := 0x0200, cycles := 3, steps := 1 } = true := by decide
theorem test_jsr :
  let s : State := at_ 0x0202 [0x20, 0x09, 0x02]
  stepsTo s { poke (poke s 0x01FF 0x02) 0x01FE 0x04 with SP := 0xFD, PC := 0x0209, cycles := 6, steps := 1 } = true := by decide
theorem test_jsr_stack_wraps :
  let s : State := { at_ 0x0200 [0x20, 0x00, 0x03] with SP := 0x00 }
  stepsTo s { poke (poke s 0x0100 0x02) 0x01FF 0x02 with SP := 0xFE, PC := 0x0300, cycles := 6, steps := 1 } = true := by decide
theorem test_rts :
  let s : State := { poke (poke (at_ 0x020E [0x60]) 0x01FE 0x04) 0x01FF 0x02 with SP := 0xFD }
  stepsTo s { s with SP := 0xFF, PC := 0x0205, cycles := 6, steps := 1 } = true := by decide
theorem test_rts_stack_wraps :
  let s : State := poke (poke (at_ 0x0200 [0x60]) 0x0100 0x33) 0x0101 0x12
  stepsTo s { s with SP := 0x01, PC := 0x1234, cycles := 6, steps := 1 } = true := by decide
theorem test_bcc_taken :
  let s : State := at_ 0x0212 [0x90, 0x01]
  stepsTo s { s with PC := 0x0215, cycles := 3, steps := 1 } = true := by decide
theorem test_bcc_not_taken :
  let s : State := { at_ 0x0212 [0x90, 0x01] with C := true }
  stepsTo s { s with PC := 0x0214, cycles := 2, steps := 1 } = true := by decide
theorem test_bcs_taken :
  let s : State := { at_ 0x0300 [0xB0, 0x10] with C := true }
  stepsTo s { s with PC := 0x0312, cycles := 3, steps := 1 } = true := by decide
theorem test_bcs_not_taken :
  let s : State := at_ 0x0300 [0xB0, 0x10]
  stepsTo s { s with PC := 0x0302, cycles := 2, steps := 1 } = true := by decide
theorem test_beq_taken :
  let s : State := { at_ 0x020A [0xF0, 0x02] with Z := true }
  stepsTo s { s with PC := 0x020E, cycles := 3, steps := 1 } = true := by decide
theorem test_beq_not_taken :
  let s : State := at_ 0x020A [0xF0, 0x02]
  stepsTo s { s with PC := 0x020C, cycles := 2, steps := 1 } = true := by decide
theorem test_bne_page_of_the_next_instruction :
  let s : State := at_ 0x02FE [0xD0, 0x00]
  stepsTo s { s with PC := 0x0300, cycles := 3, steps := 1 } = true := by decide
theorem test_bne_wraps_downward :
  let s : State := at_ 0x0010 [0xD0, 0x80]
  stepsTo s { s with PC := 0xFF92, cycles := 4, steps := 1 } = true := by decide
theorem test_bmi_page_crossed :
  let s : State := { at_ 0x02FD [0x30, 0x01] with N := true }
  stepsTo s { s with PC := 0x0300, cycles := 4, steps := 1 } = true := by decide
theorem test_bmi_not_taken :
  let s : State := at_ 0x02FD [0x30, 0x01]
  stepsTo s { s with PC := 0x02FF, cycles := 2, steps := 1 } = true := by decide
theorem test_bpl_page_crossed_back :
  let s : State := at_ 0x0300 [0x10, 0xFC]
  stepsTo s { s with PC := 0x02FE, cycles := 4, steps := 1 } = true := by decide
theorem test_bpl_not_taken :
  let s : State := { at_ 0x0300 [0x10, 0xFC] with N := true }
  stepsTo s { s with PC := 0x0302, cycles := 2, steps := 1 } = true := by decide

/-! ## BRK, NOP, unlisted opcodes, HALTED (95_test_vectors.md section 3.5) -/

theorem test_brk : stepsWith { at_ 0x020E [0x00] with steps := 24 } (fun t =>
    !t.running && t.PC == 0x020F && t.steps == 25 && t.SP == 0xFF && t.mem == []) = true := by decide
theorem test_nop :
  let s : State := at_ 0x0214 [0xEA]
  stepsTo s { s with PC := 0x0215, cycles := 2, steps := 1 } = true := by decide
theorem test_unimplemented_FF :
  let s : State := at_ 0x0200 [0xFF]
  stepsTo s { s with PC := 0x0201, cycles := 2, steps := 1 } = true := by decide
theorem test_unimplemented_40 :
  let s : State := { at_ 0x0200 [0x40] with SP := 0xFC }
  stepsTo s { s with PC := 0x0201, cycles := 2, steps := 1 } = true := by decide
theorem test_step_while_halted :
  let s : State := { at_ 0x0200 [0xA9, 0x01] with running := false }
  stepsTo s s = true := by decide

/-! ## The access order of 20_memory.md R66, as the pseudocode makes it -/

theorem test_accesses_jsr : (stepPseudocode (at_ 0x0202 [0x20, 0x09, 0x02])).2.2 =
    [.read 0x0202, .read 0x0203, .read 0x0204, .write 0x01FF 0x02, .write 0x01FE 0x04] := by decide

/-! ## Commands (95_test_vectors.md section 4) -/

theorem test_load : (match (Command.load [0xA9, 0x01]).perform State.reset with
    | .next r => decide (r.state = { State.reset with PC := 0x0200, mem := [(0x0200, 0xA9), (0x0201, 0x01)] })
    | .fault _ | .refused _ => false) = true := by decide
theorem test_load_keeps_A : ({ State.reset with SP := 0xF0, A := 0x7F, mem := [(3, 4)] } : State).loadBytes [] =
    { State.reset with A := 0x7F, PC := 0x0200 } := by decide
theorem test_step_command_after_brk : (match Command.step.perform (State.reset.loadBytes []) with
    | .next r => decide (r.reply = .running false) | .fault _ | .refused _ => false) = true := by decide

/-! ## The assembler (95_test_vectors.md section 5) -/

theorem test_assemble_two_pass : assemblesTo ["LOOP: LDA #1", "JMP LOOP"] [0xA9, 0x01, 0x4C, 0x00, 0x02]
    [(0x0200, 0), (0x0202, 1)] = true := by decide
theorem test_assemble_blank_lines_and_case : assemblesTo ["x: inx", "   ", "; only comment", "jmp X"]
    [0xE8, 0x4C, 0x00, 0x02] [(0x0200, 0), (0x0201, 3)] = true := by decide
theorem test_assemble_forward_labels : assemblesTo ["A: NOP", "B:", "C: NOP", "JMP B", "JMP C"]
    [0xEA, 0xEA, 0x4C, 0x01, 0x02, 0x4C, 0x01, 0x02] [(0x0200, 0), (0x0201, 2), (0x0202, 3), (0x0205, 4)] = true := by
  decide
theorem test_assemble_branch_out_of_range : assemblesTo ["BCC $0300"] [0x90, 0xFE] [(0x0200, 0)] = true := by decide
theorem test_assemble_label_as_zero_page : assemblesTo ["LDA LBL,X", "LBL: NOP"] [0xB5, 0x02, 0xEA]
    [(0x0200, 0), (0x0202, 1)] = true := by decide
theorem test_assemble_literals : (assemblesTo ["LDA #256"] [0xA9, 0x00] [(0x0200, 0)] &&
    assemblesTo ["LDA $00FF"] [0xA5, 0xFF] [(0x0200, 0)] && assemblesTo ["LDA 256"] [0xAD, 0x00, 0x01] [(0x0200, 0)] &&
    assemblesTo ["JMP $12345"] [0x4C, 0x45, 0x23] [(0x0200, 0)]) = true := by decide
theorem test_assemble_silent_degradations : (assemblesTo ["LDA #$ZZ"] [0xA9, 0x00] [(0x0200, 0)] &&
    assemblesTo ["LDA $10,Y"] [0xA5, 0x00] [(0x0200, 0)] && assemblesTo ["BNE NOWHERE"] [0xD0, 0xFE] [(0x0200, 0)]) =
    true := by decide
theorem test_assemble_trailing_label : assemblesTo ["NOP", "END:"] [0xEA] [(0x0200, 0)] = true := by decide
theorem test_assemble_refuses_forms : (assemblyRefused ["FOO #1"] && assemblyRefused ["LDX $1234"] &&
    assemblyRefused ["STA #1"] && assemblyRefused ["SBC $10"] && assemblyRefused ["CPX $10,X"]) = true := by decide
theorem test_assemble_refuses_operands : (assemblyRefused ["INX 5"] && assemblyRefused ["LDA"] &&
    assemblyRefused ["LDA #"] && assemblyRefused ["LDA -1"] && assemblyRefused ["LDA (10)"] &&
    assemblyRefused ["LDA $10, X"]) = true := by decide
theorem test_assemble_refuses_labels : (assemblyRefused ["A: B: NOP"] && assemblyRefused ["LBL : NOP"] &&
    assemblyRefused [": NOP"] && assemblyRefused ["1ST: NOP"] && assemblyRefused ["A: NOP", "a: NOP"]) = true := by
  decide

/-! ## One line for each of the 47 forms (95_test_vectors.md section 5.1) -/

theorem test_assemble_immediate_1 : (assemblesTo ["LDA #$12"] [0xA9, 0x12] [(0x0200, 0)] &&
    assemblesTo ["CPY #$12"] [0xC0, 0x12] [(0x0200, 0)] &&
    assemblesTo ["LDX #$12"] [0xA2, 0x12] [(0x0200, 0)] &&
    assemblesTo ["LDY #$12"] [0xA0, 0x12] [(0x0200, 0)] &&
    assemblesTo ["ADC #$12"] [0x69, 0x12] [(0x0200, 0)] &&
    assemblesTo ["SBC #$12"] [0xE9, 0x12] [(0x0200, 0)] &&
    assemblesTo ["AND #$12"] [0x29, 0x12] [(0x0200, 0)]) = true := by decide
theorem test_assemble_immediate_2 : (assemblesTo ["ORA #$12"] [0x09, 0x12] [(0x0200, 0)] &&
    assemblesTo ["EOR #$12"] [0x49, 0x12] [(0x0200, 0)] &&
    assemblesTo ["CMP #$12"] [0xC9, 0x12] [(0x0200, 0)] &&
    assemblesTo ["CPX #$12"] [0xE0, 0x12] [(0x0200, 0)]) = true := by decide
theorem test_assemble_zero_page_1 : (assemblesTo ["CPX $34"] [0xE4, 0x34] [(0x0200, 0)] &&
    assemblesTo ["LDA $34"] [0xA5, 0x34] [(0x0200, 0)] &&
    assemblesTo ["CPY $34"] [0xC4, 0x34] [(0x0200, 0)] &&
    assemblesTo ["LDX $34"] [0xA6, 0x34] [(0x0200, 0)] &&
    assemblesTo ["LDY $34"] [0xA4, 0x34] [(0x0200, 0)] &&
    assemblesTo ["STA $34"] [0x85, 0x34] [(0x0200, 0)] &&
    assemblesTo ["STX $34"] [0x86, 0x34] [(0x0200, 0)]) = true := by decide
theorem test_assemble_zero_page_2 : (assemblesTo ["STY $34"] [0x84, 0x34] [(0x0200, 0)] &&
    assemblesTo ["ADC $34"] [0x65, 0x34] [(0x0200, 0)] &&
    assemblesTo ["CMP $34"] [0xC5, 0x34] [(0x0200, 0)]) = true := by decide
theorem test_assemble_zero_page_x : (assemblesTo ["LDA $34,X"] [0xB5, 0x34] [(0x0200, 0)] &&
    assemblesTo ["STA $34,X"] [0x95, 0x34] [(0x0200, 0)] &&
    assemblesTo ["CMP $34,X"] [0xD5, 0x34] [(0x0200, 0)]) = true := by decide
theorem test_assemble_absolute : (assemblesTo ["LDA $1234"] [0xAD, 0x34, 0x12] [(0x0200, 0)] &&
    assemblesTo ["STA $1234"] [0x8D, 0x34, 0x12] [(0x0200, 0)] &&
    assemblesTo ["JMP $1234"] [0x4C, 0x34, 0x12] [(0x0200, 0)] &&
    assemblesTo ["JSR $1234"] [0x20, 0x34, 0x12] [(0x0200, 0)]) = true := by decide
theorem test_assemble_implied_1 : (assemblesTo ["INX"] [0xE8] [(0x0200, 0)] &&
    assemblesTo ["INY"] [0xC8] [(0x0200, 0)] &&
    assemblesTo ["DEX"] [0xCA] [(0x0200, 0)] &&
    assemblesTo ["DEY"] [0x88] [(0x0200, 0)] &&
    assemblesTo ["CLC"] [0x18] [(0x0200, 0)] &&
    assemblesTo ["SEC"] [0x38] [(0x0200, 0)] &&
    assemblesTo ["TAX"] [0xAA] [(0x0200, 0)]) = true := by decide
theorem test_assemble_implied_2 : (assemblesTo ["TAY"] [0xA8] [(0x0200, 0)] &&
    assemblesTo ["TXA"] [0x8A] [(0x0200, 0)] &&
    assemblesTo ["TYA"] [0x98] [(0x0200, 0)] &&
    assemblesTo ["RTS"] [0x60] [(0x0200, 0)] &&
    assemblesTo ["BRK"] [0x00] [(0x0200, 0)] &&
    assemblesTo ["NOP"] [0xEA] [(0x0200, 0)]) = true := by decide
theorem test_assemble_relative : (assemblesTo ["BCC $0210"] [0x90, 0x0E] [(0x0200, 0)] &&
    assemblesTo ["BCS $0210"] [0xB0, 0x0E] [(0x0200, 0)] &&
    assemblesTo ["BEQ $0210"] [0xF0, 0x0E] [(0x0200, 0)] &&
    assemblesTo ["BNE $0210"] [0xD0, 0x0E] [(0x0200, 0)] &&
    assemblesTo ["BMI $0210"] [0x30, 0x0E] [(0x0200, 0)] &&
    assemblesTo ["BPL $0210"] [0x10, 0x0E] [(0x0200, 0)]) = true := by decide

/-! ## Witnesses: concrete values that meet the hypotheses of each statement, at the ends of each clause's range -/

theorem witness_DecodeReadsBackEveryEncoding :
    (Instr.ldaAbs 0xFFFF).wf = true ∧ Instr.brk.wf = true ∧ (Instr.unimplemented 0xFF).wf = true := by decide
theorem witness_EncodeGivesBackTheDecodedBytes :
    decode [0xAD, 0x34, 0x12, 0x99] = .ok (.ldaAbs 0x1234, [0x99]) ∧ decode [0xFF] = .ok (.unimplemented 0xFF, []) :=
  ⟨rfl, rfl⟩
theorem witness_UnlistedOpcodeBytesAreNoOps :
    ∃ s : State, (0x01 : Byte) ∉ Claims.listedOpcodes ∧ (0xFF : Byte) ∉ Claims.listedOpcodes ∧ s.running = true ∧
      s.memRead s.PC = 0xFF ∧ s.PC.toNat < 0xFFFF := ⟨at_ 0xFFFE [0xFF], by decide⟩
theorem witness_DecodeRejectsOnlyTruncatedBytes :
    [(0x34 : Byte)].length + 1 < lengthOfOpcode 0xAD ∧ lengthOfOpcode 0xAD ≤ [(0x34 : Byte), 0x12].length + 1 ∧
      ([] : List Byte).length + 1 < lengthOfOpcode 0xA9 ∧ lengthOfOpcode 0xEA ≤ ([] : List Byte).length + 1 := by decide
theorem witness_StepRunsTheDecodedInstruction :
    let s := at_ 0xFFFE [0xAD, 0x10]
    s.running = true ∧
      decode [s.mem.read s.PC.toNat, s.mem.read ((s.PC.toNat + 1) % 65536), s.mem.read ((s.PC.toNat + 2) % 65536)] =
        .ok (.ldaAbs 0x0010, []) := ⟨rfl, rfl⟩
theorem witness_HaltedStepsChangeNothing : ({ at_ 0x0201 [] with running := false } : State).running = false := by
  decide
theorem witness_StepMakesTheTabledAccesses :
    (at_ 0x0200 [0x60]).running = true ∧ ({ at_ 0x0200 [0x60] with running := false } : State).running = false := by
  decide
theorem witness_OnlyTabledWritesChangeMemory :
    (0x1234 : Addr) ∉ writtenAddrs (accesses (.staAbs 0x1235) State.reset) ∧
      Access.write 0x1235 0x00 ∈ accesses (.staAbs 0x1235) State.reset := by decide
theorem witness_StepKeepsMemoryCanonical :
    let s : State := { at_ 0x0200 [0x85, 0x10] with A := 0x07 }
    s.MemoryCanonical ∧ stepsWith s (fun t => t.mem == [(0x10, 0x07), (0x0200, 0x85), (0x0201, 0x10)]) = true := by
  unfold State.MemoryCanonical; decide
theorem witness_StepKeepsHaltedPastBrk :
    (at_ 0x0200 []).HaltedPastBrk ∧ stepsWith (at_ 0x0200 []) (fun t => !t.running && t.PC == 0x0201) = true ∧
      ({ at_ 0x0201 [0xEA] with running := false } : State).HaltedPastBrk ∧
      ¬ ({ at_ 0x0200 [] with running := false, mem := [(0x01FF, 0xEA)] } : State).HaltedPastBrk := by
  unfold State.HaltedPastBrk; decide
theorem witness_HaltsExactlyOnByteZero :
    ∃ s : State, s.running = true ∧ s.memRead s.PC = 0x00 ∧ s.PC.toNat < 0xFFFF := ⟨at_ 0xFFFE [], by decide⟩
theorem witness_CountersGrowWithEveryStep :
    ({ State.reset with running := false } : State).running = false ∧
      (at_ 0x0200 []).running = true ∧ (at_ 0x0200 []).memRead (at_ 0x0200 []).PC = 0x00 ∧
      (at_ 0x0200 [0xEA]).running = true ∧ (at_ 0x0200 [0xEA]).memRead (at_ 0x0200 [0xEA]).PC ≠ 0x00 := by decide
theorem witness_FlagsHaveOnlyTheirWriters :
    (∃ t, exec (.adcImm 0x7F) { State.reset with A := 0x7F } = .next t ∧ t.V ≠ State.reset.V) ∧
      (∃ t, exec (.cpyZp 0x00) State.reset = .next t ∧ t.C ≠ State.reset.C) ∧
      exec (.staZp 0x10) State.reset = .next { State.reset with PC := 2, cycles := 3, steps := 1 } :=
  ⟨⟨_, rfl, by decide⟩, ⟨_, rfl, by decide⟩, rfl⟩
theorem witness_RegistersHaveOnlyTheirWriters :
    (∃ t, exec (.ldaImm 0x01) State.reset = .next t ∧ t.A ≠ State.reset.A) ∧
      (∃ t, exec .dex State.reset = .next t ∧ t.X ≠ State.reset.X) ∧
      (∃ t, exec .iny State.reset = .next t ∧ t.Y ≠ State.reset.Y) ∧
      (∃ t, exec .rts State.reset = .next t ∧ t.SP ≠ State.reset.SP) ∧
      (∃ t, exec .brk State.reset = .next t ∧ t.running ≠ State.reset.running) :=
  ⟨⟨_, rfl, by decide⟩, ⟨_, rfl, by decide⟩, ⟨_, rfl, by decide⟩, ⟨_, rfl, by decide⟩, ⟨_, rfl, by decide⟩⟩
theorem witness_PlainInstructionsGoToTheNext :
    ∃ i : Instr, i.wf = true ∧ i ≠ .rts ∧ (∀ w, i ≠ .jmp w ∧ i ≠ .jsr w) ∧
      (∀ d, i ≠ .bcc d ∧ i ≠ .bcs d ∧ i ≠ .beq d ∧ i ≠ .bne d ∧ i ≠ .bmi d ∧ i ≠ .bpl d) :=
  ⟨.staAbs 0xFFFF, by decide, nofun, fun _ => ⟨nofun, nofun⟩, fun _ => ⟨nofun, nofun, nofun, nofun, nofun, nofun⟩⟩
theorem witness_CyclesAreThoseOfTheTable :
    (Instr.bne 0x80).wf = true ∧ encode (.bne 0x80) = 0xD0 :: [0x80] ∧
      rowOfOpcode 0xD0 = some ⟨.bne, .rel, 0xD0, 2, .branch 2 1 1⟩ ∧
      rowOfOpcode 0xA9 = some ⟨.lda, .imm, 0xA9, 2, .fixed 2⟩ ∧ rowOfOpcode 0x00 = some ⟨.brk, .imp, 0x00, 1, .halts⟩ ∧
      (Instr.unimplemented 0xFF).wf = true ∧ encode (.unimplemented 0xFF) = 0xFF :: [] ∧ rowOfOpcode 0xFF = none := by
  decide
theorem witness_PushAndPop : ∃ t, exec (.jsr 0x0209) State.reset = .next t ∧ t.SP ≠ State.reset.SP :=
  ⟨_, rfl, by decide⟩
theorem witness_ZeroPageStoresStayInTheZeroPage : ∃ (z : Byte) (i : Instr) (b : Addr),
    (i = .staZp z ∨ i = .staZpx z ∨ i = .stxZp z ∨ i = .styZp z) ∧ 0x0100 ≤ b.toNat :=
  ⟨0xFF, .staZpx 0xFF, 0x0100, by decide⟩
theorem witness_StoreIsSeenByTheNextFetch :
    let s : State := { at_ 0x0200 [0x8D, 0x03, 0x02] with A := 0xEA }
    s.running = true ∧ s.fetchInstr = .staAbs (s.PC + 3) := by decide
theorem witness_LoadsCopyTheOperand :
    let s : State := { poke (poke (at_ 0x0200 []) 0x0001 0x77) 0xFFFF 0x88 with X := 0x02 }
    0x77 = s.memRead (s.eaZp 0x01) ∧ 0x77 = s.memRead (s.eaZpx 0xFF) ∧ 0x88 = s.memRead (s.eaAbs 0xFFFF) := by decide
theorem witness_CarryInstructionsSetOnlyC :
    (∃ (i : Instr) (c : Bool), (i = .clc ∧ c = false) ∨ (i = .sec ∧ c = true)) ∧ (0xFFFE : Addr).toNat < 0xFFFF :=
  ⟨⟨.sec, true, by decide⟩, by decide⟩
theorem witness_BranchesFollowTheirFlag_both_ways :
    (!({ State.reset with C := true } : State).C) = false ∧ (!State.reset.C) = true := by decide
theorem witness_LoadPlacesTheProgram :
    (List.replicate 0xFE00 (0xEA : Byte)).length ≤ 0xFE00 ∧ 0xFE00 < (List.replicate 0xFE01 (0xEA : Byte)).length := by
  simp only [List.length_replicate]; omega
theorem witness_CommandsMoveTheRunState :
    ((at_ 0x0200 [0xEA]).running = true ∧ (at_ 0x0200 [0xEA]).memRead (at_ 0x0200 [0xEA]).PC ≠ 0x00) ∧
      ((at_ 0x0200 []).running = true ∧ (at_ 0x0200 []).memRead (at_ 0x0200 []).PC = 0x00) ∧
      ({ at_ 0x0201 [] with running := false } : State).running = false ∧ [(0x60 : Byte)].length ≤ 0xFE00 := by decide
theorem witness_AssembledLayoutHasNoGaps : ∃ l out r q row v,
    pass1 ["X: INX".toList, "JMP X".toList] = .ok l ∧ assemble ["X: INX".toList, "JMP X".toList] = .ok out ∧
      l.records.head? = some r ∧ l.records[0]? = some r ∧ rowOfText r.text = .ok (row, v) ∧ l.records[1]? = some q :=
  ⟨_, _, _, _, _, _, rfl, rfl, rfl, rfl, rfl, rfl⟩
theorem witness_AssembledProgramsLoad : ∃ out, assemble ["LDA #1".toList, "BRK".toList] = .ok out := ⟨_, rfl⟩
theorem witness_AssembledAddressesHoldTheirInstructions : ∃ l out t r,
    pass1 ["X: INX".toList, "JMP X".toList] = .ok l ∧ assemble ["X: INX".toList, "JMP X".toList] = .ok out ∧
      State.reset.loadCommand out.bytecode = .next t ∧ r ∈ l.records :=
  ⟨_, _, _, _, rfl, rfl, rfl, List.Mem.head _⟩
theorem witness_OneLineAssemblesToItsOpcode : ∃ out row v,
    assemble [" lda  $10,x ; c".toList] = .ok out ∧ rowOfText (prepare " lda  $10,x ; c".toList) = .ok (row, v) :=
  ⟨_, _, _, rfl, rfl⟩
theorem witness_TakenBranchReachesItsTarget :
    let s : State := at_ 0x0300 []
    let u : State := { s with C := true, Z := true, N := true }
    (0x0282 < 65536 ∧ (-128 : Int) ≤ 0x0282 - (s.PC.toNat + 2) ∧ (0x0282 : Int) - (s.PC.toNat + 2) ≤ 127) ∧
      (0x0381 < 65536 ∧ (-128 : Int) ≤ 0x0381 - (s.PC.toNat + 2) ∧ (0x0381 : Int) - (s.PC.toNat + 2) ≤ 127) ∧
      (Instr.bcc (displacement 0x0282 s.PC.toNat) = .bcc 0x80 ∧ s.C = false) ∧
      (Instr.bcs (displacement 0x0381 u.PC.toNat) = .bcs 0x7F ∧ u.C = true) ∧
      (Instr.beq (displacement 0x0282 u.PC.toNat) = .beq 0x80 ∧ u.Z = true) ∧
      (Instr.bne (displacement 0x0381 s.PC.toNat) = .bne 0x7F ∧ s.Z = false) ∧
      (Instr.bmi (displacement 0x0282 u.PC.toNat) = .bmi 0x80 ∧ u.N = true) ∧
      (Instr.bpl (displacement 0x0381 s.PC.toNat) = .bpl 0x7F ∧ s.N = false) := by
  refine ⟨by decide, by decide, ⟨?_, rfl⟩, ⟨?_, rfl⟩, ⟨?_, rfl⟩, ⟨?_, rfl⟩, ⟨?_, rfl⟩, ⟨?_, rfl⟩⟩ <;>
    simp [displacement, at_]
theorem witness_SilentDegradationsGiveZero :
    (¬ ("ZZ".toList ≠ [] ∧ ∀ c ∈ "ZZ".toList, isUpperHex c = true)) ∧
      (¬ (([] : Text) ≠ [] ∧ ∀ c ∈ ([] : Text), isUpperHex c = true)) ∧
      (isDecDigit '1' = true ∧ ¬ (∀ d ∈ "2G".toList, isDecDigit d = true)) ∧
      (isIdent "NOWHERE".toList = true ∧ Symbols.value [] "NOWHERE".toList = 0 ∧
        ([] : Symbols).lookup "NOWHERE".toList = none) := by
  refine ⟨?_, ?_, ⟨?_, ?_⟩, ?_, ?_, ?_⟩ <;> first | rfl | simp [isUpperHex, isDecDigit]

end Sys2Proof.Tests
end

/-! ## Memory: what a write changes (20_memory.md R51) -/

namespace Sys2Proof.Machine.State

/-- `read_after_store` in the words of `MemRead`: the one rule for a read that follows a write. -/
@[simp] theorem memRead_memWrite (s : State) (a b : Addr) (v : Byte) :
    (s.memWrite a v).memRead b = if b = a then v else s.memRead b :=
  read_after_store s a b v

/-- The frame of `MemWrite`: every field but memory is kept. -/
theorem memWrite_frame (s : State) (a : Addr) (v : Byte) :
    s.memWrite a v = { s with mem := (s.memWrite a v).mem } := rfl

end Sys2Proof.Machine.State

namespace Sys2Proof.Machine

/-- Settles O24: the read rule of `MemWrite` together with its frame. -/
theorem writeChangesOneByte : Obligations.WriteChangesOneByte := by
  intro s a b v
  exact ⟨State.memRead_memWrite s a b v, State.memWrite_frame s a v⟩

end Sys2Proof.Machine

/-! ## Opcode bytes outside the table (30_encoding.md R84) -/

namespace Sys2Proof

/-- Every opcode of the table is among the 47 listed ones, so the lookup of any other byte fails. -/
theorem rowOfOpcode_of_unlisted {op : Byte} (h : op ∉ Claims.listedOpcodes) : rowOfOpcode op = none := by
  have hlisted : ∀ r ∈ instructionTable, r.opcode ∈ Claims.listedOpcodes := by decide
  cases hrow : rowOfOpcode op with
  | none => rfl
  | some r =>
    obtain ⟨hmem, rfl⟩ := mem_of_rowOfOpcode hrow
    exact absurd (hlisted r hmem) h

theorem lengthOfOpcode_of_none {op : Byte} (h : rowOfOpcode op = none) : lengthOfOpcode op = 1 := by
  simp [lengthOfOpcode, h]

theorem decode_of_none {op : Byte} (h : rowOfOpcode op = none) (rest : List Byte) :
    decode (op :: rest) = .ok (.unimplemented op, rest) := by
  simp [decode, lengthOfOpcode_of_none h, decodeInstr_of_none h]

end Sys2Proof

namespace Sys2Proof.Machine

/-- A RUNNING step on a byte that is no opcode of the table only moves past it (30_encoding.md R84). -/
theorem step_of_none {s : State} (hrun : s.running = true) (hrow : rowOfOpcode (s.memRead s.PC) = none) :
    step s = .next (s.retire 1 2) := by
  rw [step_running hrun, State.fetchInstr, decodeInstr_of_none hrow]
  rfl

/-- A count over all 256 bytes, so by evaluation. -/
theorem unlistedOpcodes_count :
    ((List.range 256).filter (fun n => !Claims.listedOpcodes.contains (BitVec.ofNat 8 n))).length = 209 := by
  rfl

/-- Settles O5: an unlisted byte has no row, and the lookup decides length, decoding and step. -/
theorem unlistedOpcodeBytesAreNoOps : Obligations.UnlistedOpcodeBytesAreNoOps := by
  refine ⟨unlistedOpcodes_count, fun op hop => ?_⟩
  have hrow : rowOfOpcode op = none := rowOfOpcode_of_unlisted hop
  refine ⟨lengthOfOpcode_of_none hrow, decode_of_none hrow, ?_⟩
  rintro s hrun rfl
  refine ⟨s.retire 1 2, step_of_none hrun hrow, rfl, fun hpc => ?_, rfl⟩
  rw [State.retire_PC]
  bv_omega

/-! ## Every step completes (30_encoding.md R98) -/

/-- Every instruction, from every state, answers a next state with one more step counted: no arm faults or is refused,
and each ends in `State.transfer`. -/
theorem exec_next_steps (i : Instr) (s : State) : ∃ t, exec i s = .next t ∧ t.steps = s.steps + 1 := by
  cases i <;> exact ⟨_, rfl, rfl⟩

theorem step_running_next {s : State} (h : s.running = true) : ∃ t, step s = .next t ∧ t.steps = s.steps + 1 := by
  rw [step_running h]
  exact exec_next_steps s.fetchInstr s

theorem step_next (s : State) : ∃ t, step s = .next t := by
  cases hrun : s.running with
  | false => exact ⟨s, step_halted hrun⟩
  | true =>
    obtain ⟨t, hstep, _⟩ := step_running_next hrun
    exact ⟨t, hstep⟩

theorem stepCommand_of_step {s t : State} (h : step s = .next t) :
    s.stepCommand = .next { state := t, reply := .running t.running } := by
  simp [State.stepCommand, h, answer]

/-- A RUNNING step counts itself, so only a HALTED one leaves the state as it is. -/
theorem step_eq_self_iff (s : State) : step s = .next s ↔ s.running = false := by
  refine ⟨fun hself => ?_, step_halted⟩
  by_contra hrun
  obtain ⟨t, hstep, hcount⟩ := step_running_next (Bool.eq_true_of_not_eq_false hrun)
  obtain rfl : s = t := by simpa using hself.symm.trans hstep
  omega

/-- Settles O8: totality of `step`, the answer that `stepCommand` takes from it, and the step count. -/
theorem stepAlwaysCompletes : Obligations.StepAlwaysCompletes := by
  intro s
  obtain ⟨t, hstep⟩ := step_next s
  exact ⟨⟨t, hstep, stepCommand_of_step hstep⟩, step_eq_self_iff s⟩

end Sys2Proof.Machine

/-! ## The compares (41_arithmetic_logic_compare.md R137) -/

namespace Sys2Proof.Machine

/-- The bit that `SetNZ` copies to N, as a bound on the byte (10_state.md R25). -/
theorem getLsbD_seven (v : Byte) : v.getLsbD 7 = decide (128 ≤ v.toNat) :=
  BitVec.msb_eq_decide v

/-- A difference over the integers, reduced to a byte, is the difference of the bytes. -/
theorem ofInt_toNat_sub_toNat (a b : Byte) : BitVec.ofInt 8 (a.toNat - b.toNat) = a - b := by
  apply BitVec.eq_of_toNat_eq
  rw [BitVec.toNat_ofInt, BitVec.toNat_sub]
  omega

theorem compare_N_eq (s : State) (r m : Byte) :
    (s.compare r m).N = decide (128 ≤ (r.toNat + 256 - m.toNat) % 256) := by
  have hdiff : (r - m).toNat = (r.toNat + 256 - m.toNat) % 256 := by bv_omega
  rw [State.compare_N, ofInt_toNat_sub_toNat, getLsbD_seven, hdiff]

theorem compare_Z_eq (s : State) (r m : Byte) : (s.compare r m).Z = decide (r = m) := by
  rw [State.compare_Z, ofInt_toNat_sub_toNat]
  exact decide_eq_decide.mpr sub_eq_zero

/-- An instruction that ends with `Cmp(r, m)`, whatever its length and cost, compares `r` with `m`. -/
theorem compares_of_exec {i : Instr} {s : State} {r m : Byte} {bytes : Addr} {cost : Nat}
    (h : exec i s = .next ((s.compare r m).retire bytes cost)) : Claims.Compares i s r m :=
  ⟨_, h, compare_N_eq s r m, compare_Z_eq s r m, rfl, rfl⟩

/-- Settles O35: each of the seven forms ends with `Cmp` of its register and its operand. -/
theorem comparesSetNZC : Obligations.ComparesSetNZC := by
  intro s m z
  exact ⟨compares_of_exec rfl, compares_of_exec rfl, compares_of_exec rfl, compares_of_exec rfl,
    compares_of_exec rfl, compares_of_exec rfl, compares_of_exec rfl⟩

end Sys2Proof.Machine

/-! ## CLC and SEC (42_register_and_flag_ops.md R174, R175) -/

namespace Sys2Proof.Machine

/-- Below 0xFFFF, PC past a one-byte instruction does not wrap (10_state.md R22). -/
theorem State.toNat_retire_one_PC {s : State} (h : s.PC.toNat < 0xFFFF) (cost : Nat) :
    (s.retire 1 cost).PC.toNat = s.PC.toNat + 1 := by
  rw [State.retire_PC]
  bv_omega

/-- CLC and SEC are one operation on the carry, with the value to write as its parameter. -/
theorem exec_carryInstruction (s : State) {i : Instr} {c : Bool}
    (h : (i = .clc ∧ c = false) ∨ (i = .sec ∧ c = true)) :
    exec i s = .next ({ s with C := c }.retire 1 2) := by
  obtain ⟨rfl, rfl⟩ | ⟨rfl, rfl⟩ := h
  · rfl
  · rfl

/-- Settles O38: both instructions write C and then retire one byte at 2 cycles. -/
theorem carryInstructionsSetOnlyC : Obligations.CarryInstructionsSetOnlyC := by
  refine ⟨rfl, rfl, fun s i c hi => ?_⟩
  exact ⟨_, exec_carryInstruction s hi, rfl, fun hpc => State.toNat_retire_one_PC hpc 2, rfl⟩

end Sys2Proof.Machine

/-! ## The halt (60_exceptions.md R312) -/

namespace Sys2Proof

theorem mnemonic_eq_brk_of_ofForm {mn : Mnemonic} {mode : Mode} {b1 b2 : Byte}
    (h : Instr.ofForm mn mode b1 b2 = some .brk) : mn = .brk := by
  cases mn with
  | brk => rfl
  | _ => cases mode <;> simp [Instr.ofForm] at h

theorem opcode_eq_zero_of_mnemonic_brk : ∀ r ∈ instructionTable, r.mnemonic = .brk → r.opcode = 0x00 := by
  decide

/-- BRK has one row in the table, so one opcode byte decodes to it, whatever bytes follow. -/
theorem decodeInstr_eq_brk_iff (op b1 b2 : Byte) : decodeInstr op b1 b2 = .brk ↔ op = 0x00 := by
  refine ⟨fun h => ?_, by rintro rfl; rfl⟩
  cases hrow : rowOfOpcode op with
  | none => simp [decodeInstr_of_none hrow] at h
  | some r =>
    obtain ⟨hmem, rfl⟩ := mem_of_rowOfOpcode hrow
    obtain ⟨i, hform⟩ := Option.isSome_iff_exists.mp (ofForm_isSome hmem b1 b2)
    obtain rfl : i = .brk := by simpa [decodeInstr, hrow, hform] using h
    exact opcode_eq_zero_of_mnemonic_brk r hmem (mnemonic_eq_brk_of_ofForm hform)

end Sys2Proof

namespace Sys2Proof.Machine

theorem State.fetchInstr_eq_brk_iff (s : State) : s.fetchInstr = .brk ↔ s.memRead s.PC = 0x00 :=
  decodeInstr_eq_brk_iff _ _ _

/-- Every instruction but BRK answers a next state whose run state is the one before it. -/
theorem exec_running_of_ne_brk {i : Instr} (hi : i ≠ .brk) (s : State) :
    ∃ t, exec i s = .next t ∧ t.running = s.running := by
  cases i with
  | brk => exact absurd rfl hi
  | _ => exact ⟨_, rfl, rfl⟩

/-- A RUNNING step on the byte 0x00 halts past that byte (44_system_halt_nop.md R220). -/
theorem step_of_zero {s : State} (hrun : s.running = true) (hop : s.memRead s.PC = 0x00) :
    step s = .next ({ s with running := false }.retire 1 Config.brkCycles) := by
  rw [step_running hrun, s.fetchInstr_eq_brk_iff.mpr hop]
  rfl

/-- A RUNNING step on any other byte leaves the machine RUNNING. -/
theorem step_stays_running_of_ne_zero {s : State} (hrun : s.running = true) (hop : s.memRead s.PC ≠ 0x00) :
    ∃ t, step s = .next t ∧ t.running = true := by
  have hbrk : s.fetchInstr ≠ .brk := mt s.fetchInstr_eq_brk_iff.mp hop
  rw [step_running hrun, ← hrun]
  exact exec_running_of_ne_brk hbrk s

/-- Settles O16: the byte at PC decides whether the step executes BRK, the one instruction that halts. -/
theorem haltsExactlyOnByteZero : Obligations.HaltsExactlyOnByteZero := by
  intro s hrun
  by_cases hop : s.memRead s.PC = 0x00
  · exact ⟨_, step_of_zero hrun hop, iff_of_true rfl hop,
      fun _ => ⟨fun hpc => State.toNat_retire_one_PC hpc Config.brkCycles, rfl⟩⟩
  · obtain ⟨t, hstep, hstill⟩ := step_stays_running_of_ne_zero hrun hop
    exact ⟨t, hstep, iff_of_false (by simp [hstill]) hop, fun hzero => absurd hzero hop⟩

end Sys2Proof.Machine

/-! ## The decoder and the encoder (30_encoding.md sections 1 to 6) -/

namespace Sys2Proof

/-! ### Decoding, by the length that the opcode byte fixes (30_encoding.md R80) -/

theorem decode_of_length_one {op : Byte} (h : lengthOfOpcode op = 1) (rest : List Byte) :
    decode (op :: rest) = .ok (decodeInstr op 0 0, rest) := by
  simp [decode, h]

theorem decode_of_length_two {op : Byte} (h : lengthOfOpcode op = 2) (b1 : Byte) (rest : List Byte) :
    decode (op :: b1 :: rest) = .ok (decodeInstr op b1 0, rest) := by
  simp [decode, h]

theorem decode_of_length_three {op : Byte} (h : lengthOfOpcode op = 3) (b1 b2 : Byte) (rest : List Byte) :
    decode (op :: b1 :: b2 :: rest) = .ok (decodeInstr op b1 b2, rest) := by
  simp [decode, h]

theorem decode_of_too_short {op : Byte} {rest : List Byte} (h : rest.length + 1 < lengthOfOpcode op) :
    decode (op :: rest) = .error (.truncated op) := by
  obtain hlen | hlen | hlen := lengthOfOpcode_cases op
  · omega
  · match rest, h with
    | [], _ => simp [decode, hlen]
    | _ :: _, h => simp [hlen] at h
  · match rest, h with
    | [], _ => simp [decode, hlen]
    | [_], _ => simp [decode, hlen]
    | _ :: _ :: _, h => simp only [hlen, List.length_cons] at h; omega

theorem decode_of_long_enough {op : Byte} {rest : List Byte} (h : lengthOfOpcode op ≤ rest.length + 1) :
    ∃ i, decode (op :: rest) = .ok (i, rest.drop (lengthOfOpcode op - 1)) := by
  obtain hlen | hlen | hlen := lengthOfOpcode_cases op
  · exact ⟨_, by rw [decode_of_length_one hlen, hlen]; rfl⟩
  · match rest, h with
    | [], h => simp [hlen] at h
    | b1 :: rest, _ => exact ⟨_, by rw [decode_of_length_two hlen, hlen]; rfl⟩
  · match rest, h with
    | [], h => simp [hlen] at h
    | [_], h => simp [hlen] at h
    | b1 :: b2 :: rest, _ => exact ⟨_, by rw [decode_of_length_three hlen, hlen]; rfl⟩

/-- Settles O6: a list that begins with an opcode byte is refused where it is too short, and only there. -/
theorem decodeRejectsOnlyTruncatedBytes : Obligations.DecodeRejectsOnlyTruncatedBytes :=
  ⟨rfl, fun _ _ => ⟨decode_of_too_short, decode_of_long_enough⟩⟩

/-! ### From an instruction to its bytes and back -/

/-- An absolute operand is read back from its low and its high byte. -/
theorem decode_absolute {op : Byte} {form : Addr → Instr} (hlen : lengthOfOpcode op = 3)
    (hform : ∀ b1 b2, decodeInstr op b1 b2 = form (joinBytes b2 b1)) (w : Addr) (rest : List Byte) :
    decode (op :: lowByte w :: highByte w :: rest) = .ok (form w, rest) := by
  rw [decode_of_length_three hlen, hform, joinBytes_high_low]

/-- Settles O1: the opcode byte of each constructor fixes the length, and the bytes of that length are its operand. -/
theorem decodeReadsBackEveryEncoding : Obligations.DecodeReadsBackEveryEncoding := by
  intro i rest hwf
  cases i with
  | unimplemented op => exact decode_of_none (Option.isNone_iff_eq_none.mp hwf) rest
  | ldaAbs w | staAbs w | jmp w | jsr w => exact decode_absolute rfl (fun _ _ => rfl) w rest
  | inx | iny | dex | dey | clc | sec | tax | tay | txa | tya | rts | brk | nop => exact decode_of_length_one rfl rest
  | _ => exact decode_of_length_two rfl _ rest

/-- Well-formed instructions with the same bytes are the same. -/
theorem eq_of_encode_eq {i j : Instr} (hi : i.wf = true) (hj : j.wf = true) (h : encode i = encode j) : i = j := by
  have hdecode := decodeReadsBackEveryEncoding i [] hi
  rw [h, decodeReadsBackEveryEncoding j [] hj] at hdecode
  simpa using hdecode.symm

/-! ### From bytes to an instruction and back -/

/-- A row of the Instruction Table is found by its opcode. -/
theorem rowOfOpcode_opcode : ∀ r ∈ instructionTable, rowOfOpcode r.opcode = some r := by
  decide

/-- A row of the Instruction Table is found by its form. -/
theorem rowOfForm_form : ∀ r ∈ instructionTable, rowOfForm r.mnemonic r.mode = some r := by
  decide

/-- The number of operand bytes of a format (30_encoding.md R81). -/
def Mode.operandCount : Mode → Nat
  | .imp => 0
  | .imm | .zp | .zpx | .rel => 1
  | .abs => 2

theorem bytes_eq_operandCount : ∀ r ∈ instructionTable, r.bytes = r.mode.operandCount + 1 := by
  decide

/-- The instruction of a form is well-formed and is encoded with the operand bytes it was made from. -/
theorem encode_of_ofForm {mn : Mnemonic} {mode : Mode} {b1 b2 : Byte} {i : Instr}
    (h : Instr.ofForm mn mode b1 b2 = some i) :
    i.wf = true ∧ encode i = encodeForm mn mode ([b1, b2].take mode.operandCount) := by
  unfold Instr.ofForm at h
  split at h <;> cases h <;> simp [Instr.wf, encode, Mode.operandCount]

theorem encodeForm_of_mem {r : Row} (h : r ∈ instructionTable) (operands : List Byte) :
    encodeForm r.mnemonic r.mode operands = r.opcode :: operands := by
  simp [encodeForm, rowOfForm_form r h]

/-- `decodeInstr` answers a well-formed instruction, whose encoding is the bytes it looked at. -/
theorem wf_and_encode_decodeInstr (op b1 b2 : Byte) :
    (decodeInstr op b1 b2).wf = true ∧
      encode (decodeInstr op b1 b2) = op :: [b1, b2].take (lengthOfOpcode op - 1) := by
  cases hrow : rowOfOpcode op with
  | none =>
    rw [decodeInstr_of_none hrow, lengthOfOpcode_of_none hrow]
    exact ⟨by simp [Instr.wf, hrow], rfl⟩
  | some r =>
    obtain ⟨hmem, rfl⟩ := mem_of_rowOfOpcode hrow
    obtain ⟨i, hform⟩ := Option.isSome_iff_exists.mp (ofForm_isSome hmem b1 b2)
    have hdecode : decodeInstr r.opcode b1 b2 = i := by simp [decodeInstr, hrow, hform]
    have hlen : lengthOfOpcode r.opcode - 1 = r.mode.operandCount := by
      simp [lengthOfOpcode, hrow, bytes_eq_operandCount r hmem]
    rw [hdecode, hlen, ← encodeForm_of_mem hmem]
    exact encode_of_ofForm hform

@[simp] theorem wf_decodeInstr (op b1 b2 : Byte) : (decodeInstr op b1 b2).wf = true :=
  (wf_and_encode_decodeInstr op b1 b2).1

theorem encode_decodeInstr (op b1 b2 : Byte) :
    encode (decodeInstr op b1 b2) = op :: [b1, b2].take (lengthOfOpcode op - 1) :=
  (wf_and_encode_decodeInstr op b1 b2).2

/-- Settles O2: a list that is not refused is as long as its opcode says, and `decodeInstr` keeps the bytes it used. -/
theorem encodeGivesBackTheDecodedBytes : Obligations.EncodeGivesBackTheDecodedBytes := by
  intro bs rest i h
  match bs with
  | [] => simp [decode] at h
  | op :: bytes =>
    by_cases hshort : bytes.length + 1 < lengthOfOpcode op
    · rw [decode_of_too_short hshort] at h
      cases h
    · obtain hlen | hlen | hlen := lengthOfOpcode_cases op
      · rw [decode_of_length_one hlen] at h
        cases h
        simp [encode_decodeInstr, hlen]
      · match bytes with
        | [] => simp [hlen] at hshort
        | b1 :: bytes =>
          rw [decode_of_length_two hlen] at h
          cases h
          simp [encode_decodeInstr, hlen]
      · match bytes with
        | [] | [_] => simp [hlen] at hshort
        | b1 :: b2 :: bytes =>
          rw [decode_of_length_three hlen] at h
          cases h
          simp [encode_decodeInstr, hlen]

/-- What is decoded depends on the opcode and its operand bytes alone (30_encoding.md R82). -/
theorem decodeInstr_congr {op b1 b2 c1 c2 : Byte}
    (h : [b1, b2].take (lengthOfOpcode op - 1) = [c1, c2].take (lengthOfOpcode op - 1)) :
    decodeInstr op b1 b2 = decodeInstr op c1 c2 :=
  eq_of_encode_eq (wf_decodeInstr ..) (wf_decodeInstr ..) (by rw [encode_decodeInstr, encode_decodeInstr, h])

/-- On a list of three bytes, the longest instruction, the two forms of the decoder agree. -/
theorem decode_three_bytes (op b1 b2 : Byte) :
    decode [op, b1, b2] = .ok (decodeInstr op b1 b2, [b1, b2].drop (lengthOfOpcode op - 1)) := by
  obtain hlen | hlen | hlen := lengthOfOpcode_cases op
  · rw [decode_of_length_one hlen, decodeInstr_congr (c1 := b1) (c2 := b2) (by simp [hlen])]
    simp [hlen]
  · rw [decode_of_length_two hlen, decodeInstr_congr (c1 := b1) (c2 := b2) (by simp [hlen])]
    simp [hlen]
  · rw [decode_of_length_three hlen]
    simp [hlen]

/-! ### Particular words -/

theorem lowByte_ofNat (n : Nat) : lowByte (BitVec.ofNat 16 n) = BitVec.ofNat 8 (n % 256) := by
  apply BitVec.eq_of_toNat_eq
  rw [toNat_lowByte, BitVec.toNat_ofNat, BitVec.toNat_ofNat]
  omega

theorem highByte_ofNat (n : Nat) : highByte (BitVec.ofNat 16 n) = BitVec.ofNat 8 (n / 256 % 256) := by
  apply BitVec.eq_of_toNat_eq
  rw [toNat_highByte, BitVec.toNat_ofNat, BitVec.toNat_ofNat]
  omega

/-- Settles O3: on closed words the decoder computes, one word at a time. -/
theorem specWordsDecode : Obligations.SpecWordsDecode :=
  ⟨rfl, rfl, rfl, rfl, rfl, rfl, rfl, rfl, rfl, rfl, rfl, rfl, rfl⟩

end Sys2Proof

namespace Sys2Proof.Machine

/-- Settles O4: the decoder joins the two bytes low byte first, and the assembler splits the value the same way. -/
theorem absoluteOperandsAreLittleEndian : Obligations.AbsoluteOperandsAreLittleEndian := by
  refine ⟨fun lo hi rest => ⟨joinBytes hi lo, toNat_joinBytes hi lo, ?_, ?_, ?_, ?_⟩, fun address value => ?_, rfl⟩
  · exact decode_of_length_three rfl lo hi rest
  · exact decode_of_length_three rfl lo hi rest
  · exact decode_of_length_three rfl lo hi rest
  · exact decode_of_length_three rfl lo hi rest
  · rw [operandBytes, lowByte_ofNat, highByte_ofNat]

end Sys2Proof.Machine

/-! ## Steps and runs (30_encoding.md R97, R98; 60_exceptions.md R300, R312) -/

namespace Sys2Proof.Machine

theorem State.decode_fetchBytes (s : State) : ∃ rest, decode s.fetchBytes = .ok (s.fetchInstr, rest) :=
  ⟨_, decode_three_bytes _ _ _⟩

/-- The fetched bytes as reads at numbers, the sums reduced modulo 65536 (10_state.md R22). -/
theorem State.fetchBytes_eq_reads (s : State) :
    s.fetchBytes =
      [s.mem.read s.PC.toNat, s.mem.read ((s.PC.toNat + 1) % 65536), s.mem.read ((s.PC.toNat + 2) % 65536)] := by
  simp [State.fetchBytes, State.memRead, BitVec.toNat_add]

/-- Settles O7: the three bytes are those the step fetches, and decoding is a function. -/
theorem stepRunsTheDecodedInstruction : Obligations.StepRunsTheDecodedInstruction := by
  intro s i rest hrun hdecode
  obtain ⟨rest', hfetch⟩ := s.decode_fetchBytes
  rw [← s.fetchBytes_eq_reads, hfetch] at hdecode
  obtain ⟨rfl, -⟩ : s.fetchInstr = i ∧ rest' = rest := by simpa using hdecode
  exact step_running hrun

theorem reachesIn_zero (s : State) : ReachesIn 0 s s := rfl

theorem reachesIn_succ {s t u : State} {k : Nat} (hstep : step s = .next t) (hrun : ReachesIn k t u) :
    ReachesIn (k + 1) s u :=
  (run_succ hstep k).trans hrun

theorem reachesIn_of_halted {s : State} (h : s.running = false) (k : Nat) : ReachesIn k s s := by
  induction k with
  | zero => exact reachesIn_zero s
  | succ k ih => exact reachesIn_succ (step_halted h) ih

/-- Settles O9: by induction on the number of steps, each of which is idle. -/
theorem haltedStepsChangeNothing : Obligations.HaltedStepsChangeNothing := by
  intro s k h
  refine ⟨reachesIn_of_halted h k, ?_⟩
  rw [stepCommand_of_step (step_halted h), h]

/-- Settles O17: by induction on the number of steps, each of which completes. -/
theorem everyRunIsSafe : Obligations.EveryRunIsSafe := by
  intro s k
  induction k generalizing s with
  | zero => exact ⟨s, reachesIn_zero s⟩
  | succ k ih =>
    obtain ⟨t, hstep⟩ := step_next s
    obtain ⟨u, hrun⟩ := ih t
    exact ⟨u, reachesIn_succ hstep hrun⟩

/-- BRK leaves PC one past its own byte, in an unchanged memory. -/
theorem haltedPastBrk_of_brk {s : State} (h : s.memRead s.PC = 0x00) (cost : Nat) :
    ({ s with running := false }.retire 1 cost).HaltedPastBrk := by
  intro _
  have hpc : ({ s with running := false }.retire 1 cost).PC - 1 = s.PC := add_sub_cancel_right s.PC 1
  rw [hpc]
  exact h

/-- Settles O14: a step from RUNNING halts at a BRK byte or goes on RUNNING, and a HALTED step keeps the state. -/
theorem stepKeepsHaltedPastBrk : Obligations.StepKeepsHaltedPastBrk := by
  intro s t hs hstep
  obtain ⟨-, rfl⟩ | ⟨hrun, -⟩ := step_cases hstep
  · exact hs
  · by_cases hop : s.memRead s.PC = 0x00
    · rw [step_of_zero hrun hop] at hstep
      cases hstep
      exact haltedPastBrk_of_brk hop Config.brkCycles
    · obtain ⟨u, hnext, hstill⟩ := step_stays_running_of_ne_zero hrun hop
      rw [hnext] at hstep
      cases hstep
      exact fun hhalt => absurd hhalt (by simp [hstill])

/-- Settles O15: every register by its value, and both invariants hold of empty memory and of a RUNNING machine. -/
theorem resetStateValues : Obligations.ResetStateValues :=
  ⟨⟨rfl, rfl, rfl, rfl, rfl⟩, ⟨rfl, rfl, rfl, rfl⟩, ⟨rfl, rfl, rfl⟩, fun _ => rfl, Memory.wf_nil,
    fun hhalt => absurd hhalt (by simp [State.reset])⟩

end Sys2Proof.Machine

/-! ## Memory after an instruction (20_memory.md R66) -/

namespace Sys2Proof.Machine

/-- Memory after the stores of an access list, oldest first. -/
def Memory.afterAccesses (m : Memory) : List Access → Memory
  | [] => m
  | .read _ :: l => m.afterAccesses l
  | .write a v :: l => (m.write a.toNat v).afterAccesses l

/-- Every instruction completes, and the stores of its row are all it does to memory. -/
theorem exec_mem (i : Instr) (s : State) :
    ∃ t, exec i s = .next t ∧ t.mem = s.mem.afterAccesses (accesses i s) := by
  cases i <;> exact ⟨_, rfl, rfl⟩

theorem Memory.wf_afterAccesses {m : Memory} (l : List Access) (h : m.wf) : (m.afterAccesses l).wf := by
  induction l generalizing m with
  | nil => exact h
  | cons access l ih =>
    cases access with
    | read a => exact ih h
    | write a v => exact ih (wf_write v h a.isLt)

theorem Memory.read_afterAccesses_of_not_mem {l : List Access} {b : Addr} (h : b ∉ writtenAddrs l) (m : Memory) :
    (m.afterAccesses l).read b.toNat = m.read b.toNat := by
  induction l generalizing m with
  | nil => rfl
  | cons access l ih =>
    cases access with
    | read a => exact ih h m
    | write a v =>
      obtain ⟨hne, hl⟩ : b ≠ a ∧ b ∉ writtenAddrs l := by simpa [writtenAddrs] using h
      rw [afterAccesses, ih hl, read_write, if_neg (by rwa [BitVec.toNat_inj])]

/-- Where no address is stored to twice, each store is what is read afterwards. -/
theorem Memory.read_afterAccesses_of_mem {l : List Access} {a : Addr} {v : Byte} (hnodup : (writtenAddrs l).Nodup)
    (h : Access.write a v ∈ l) (m : Memory) : (m.afterAccesses l).read a.toNat = v := by
  induction l generalizing m with
  | nil => cases h
  | cons access l ih =>
    cases access with
    | read b => exact ih hnodup (by simpa using h) m
    | write b w =>
      obtain ⟨hb, hl⟩ := List.nodup_cons.mp hnodup
      rw [afterAccesses]
      obtain heq | hmem := List.mem_cons.mp h
      · cases heq
        rw [read_afterAccesses_of_not_mem hb, read_write, if_pos rfl]
      · exact ih hl hmem _

/-- No row stores to an address twice: only JSR stores twice, to two slots of the stack. -/
theorem nodup_writtenAddrs (i : Instr) (s : State) : (writtenAddrs (accesses i s)).Nodup := by
  cases i with
  | jsr w =>
    have hslots : stackAddr s.SP ≠ stackAddr (s.SP - 1) := fun h => by
      have hsp := stackAddr_injective h
      bv_omega
    simpa [accesses, writtenAddrs, State.fetchReads] using hslots
  | _ => simp [accesses, writtenAddrs, State.fetchReads]

/-- Settles O12: memory is what the stores of the row leave, and these are at distinct addresses. -/
theorem onlyTabledWritesChangeMemory : Obligations.OnlyTabledWritesChangeMemory := by
  intro i s
  obtain ⟨t, hexec, hmem⟩ := exec_mem i s
  refine ⟨t, hexec, fun b hb => ?_, fun a v hwrite => ?_⟩
  · rw [State.memRead, hmem]
    exact Memory.read_afterAccesses_of_not_mem hb s.mem
  · rw [State.memRead, hmem]
    exact Memory.read_afterAccesses_of_mem (nodup_writtenAddrs i s) hwrite s.mem

/-- Settles O13: a RUNNING step changes memory by stores at 16-bit addresses, a HALTED one does not change it. -/
theorem stepKeepsMemoryCanonical : Obligations.StepKeepsMemoryCanonical := by
  intro s t hs hstep
  obtain ⟨-, rfl⟩ | ⟨-, hexec⟩ := step_cases hstep
  · exact hs
  · obtain ⟨u, hnext, hmem⟩ := exec_mem s.fetchInstr s
    rw [hnext] at hexec
    cases hexec
    rw [State.MemoryCanonical, hmem]
    exact Memory.wf_afterAccesses _ hs

/-! ### Stores (40_load_store.md section 2, 70_reset_and_hazards.md section 3) -/

/-- The two zero-page modes stay below the stack page (20_memory.md R59). -/
theorem toNat_eaZp_lt (s : State) (z : Byte) : (s.eaZp z).toNat < 0x0100 := by
  simpa [State.eaZp] using z.isLt

theorem toNat_eaZpx_lt (s : State) (z : Byte) : (s.eaZpx z).toNat < 0x0100 := by
  simpa only [State.eaZpx, toNat_zext8] using (z + s.X).isLt

/-- A zero-page store writes to one address, which is in the zero page. -/
theorem toNat_lt_of_mem_writtenAddrs {s : State} {z : Byte} {i : Instr} {b : Addr}
    (hi : i = .staZp z ∨ i = .staZpx z ∨ i = .stxZp z ∨ i = .styZp z) (hb : b ∈ writtenAddrs (accesses i s)) :
    b.toNat < 0x0100 := by
  obtain rfl | rfl | rfl | rfl := hi
  · exact List.mem_singleton.mp hb ▸ toNat_eaZp_lt s z
  · exact List.mem_singleton.mp hb ▸ toNat_eaZpx_lt s z
  · exact List.mem_singleton.mp hb ▸ toNat_eaZp_lt s z
  · exact List.mem_singleton.mp hb ▸ toNat_eaZp_lt s z

/-- Settles O27: what the rows of the four stores do not write is unchanged. -/
theorem zeroPageStoresStayInTheZeroPage : Obligations.ZeroPageStoresStayInTheZeroPage := by
  intro s z i hi
  obtain ⟨t, hexec, hframe, -⟩ := onlyTabledWritesChangeMemory i s
  refine ⟨t, hexec, fun b hb => hframe b fun hmem => ?_⟩
  have hzero := toNat_lt_of_mem_writtenAddrs hi hmem
  omega

end Sys2Proof.Machine

/-! ## The ends of an instruction, in the words of the statements -/

namespace Sys2Proof.Machine

/-- Past its bytes an instruction leaves PC modulo 65536 (10_state.md R22). -/
theorem retire_eq_advanced (s : State) (bytes : Addr) (cost : Nat) :
    s.retire bytes cost = Claims.advanced s bytes.toNat cost := by
  simp [Claims.advanced, State.transfer, BitVec.ofNat_add]

/-- `SetNZ`, with the sign bit as a bound and the zero test on the number (10_state.md R25). -/
theorem setNZ_eq_withNZ (s : State) (v : Byte) : s.setNZ v = Claims.withNZ s v := by
  have hzero : (v == 0) = decide (v.toNat = 0) := decide_eq_decide.mpr BitVec.toNat_eq
  rw [State.setNZ, Claims.withNZ, getLsbD_seven, hzero]

theorem loadA_retire (s : State) (v : Byte) (bytes : Addr) (cost : Nat) :
    (s.loadA v).retire bytes cost = { Claims.withNZ (Claims.advanced s bytes.toNat cost) v with A := v } := by
  rw [retire_eq_advanced, State.loadA, setNZ_eq_withNZ]
  rfl

theorem loadX_retire (s : State) (v : Byte) (bytes : Addr) (cost : Nat) :
    (s.loadX v).retire bytes cost = { Claims.withNZ (Claims.advanced s bytes.toNat cost) v with X := v } := by
  rw [retire_eq_advanced, State.loadX, setNZ_eq_withNZ]
  rfl

theorem loadY_retire (s : State) (v : Byte) (bytes : Addr) (cost : Nat) :
    (s.loadY v).retire bytes cost = { Claims.withNZ (Claims.advanced s bytes.toNat cost) v with Y := v } := by
  rw [retire_eq_advanced, State.loadY, setNZ_eq_withNZ]
  rfl

theorem setArith_retire (s : State) (r : ArithResult) (bytes : Addr) (cost : Nat) :
    (s.setArith r).retire bytes cost =
      { Claims.withNZ (Claims.advanced s bytes.toNat cost) r.result with
        A := r.result, C := r.carry, V := r.overflow } := by
  rw [retire_eq_advanced, State.setArith, setNZ_eq_withNZ]
  rfl

/-! ## Loads, transfers, increments and logic (40_load_store.md section 1, 41_arithmetic_logic_compare.md section 4,
42_register_and_flag_ops.md sections 1 and 3) -/

/-- Settles O29: each load ends with its register taking the operand. -/
theorem loadsCopyTheOperand : Obligations.LoadsCopyTheOperand := by
  intro s v z w
  refine ⟨congrArg Host.Outcome.next (loadA_retire s v 2 2), congrArg Host.Outcome.next (loadX_retire s v 2 2),
    congrArg Host.Outcome.next (loadY_retire s v 2 2), ?_, ?_, ?_⟩
  · rintro rfl
    exact ⟨congrArg Host.Outcome.next (loadA_retire s _ 2 3), congrArg Host.Outcome.next (loadX_retire s _ 2 3),
      congrArg Host.Outcome.next (loadY_retire s _ 2 3)⟩
  · rintro rfl
    exact congrArg Host.Outcome.next (loadA_retire s _ 2 4)
  · rintro rfl
    exact congrArg Host.Outcome.next (loadA_retire s _ 3 4)

/-- Settles O37: each transfer ends with its destination taking the source. -/
theorem transfersCopyARegister : Obligations.TransfersCopyARegister := by
  intro s
  exact ⟨congrArg Host.Outcome.next (loadX_retire s s.A 1 2), congrArg Host.Outcome.next (loadY_retire s s.A 1 2),
    congrArg Host.Outcome.next (loadA_retire s s.X 1 2), congrArg Host.Outcome.next (loadA_retire s s.Y 1 2)⟩

theorem toNat_add_one (v : Byte) : (v + 1).toNat = (v.toNat + 1) % 256 :=
  BitVec.toNat_add v 1

theorem toNat_sub_one (v : Byte) : (v - 1).toNat = (v.toNat + 255) % 256 := by
  bv_omega

/-- Settles O36: each ends with its register taking the successor or the predecessor. -/
theorem incrementsAndDecrementsWrap : Obligations.IncrementsAndDecrementsWrap := by
  intro s
  exact ⟨⟨_, rfl, toNat_add_one s.X, loadX_retire s _ 1 2⟩, ⟨_, rfl, toNat_add_one s.Y, loadY_retire s _ 1 2⟩,
    ⟨_, rfl, toNat_sub_one s.X, loadX_retire s _ 1 2⟩, ⟨_, rfl, toNat_sub_one s.Y, loadY_retire s _ 1 2⟩⟩

/-- Settles O34: each ends with A taking the combined byte, whose bits are those of the operands combined. -/
theorem logicActsBitwise : Obligations.LogicActsBitwise := by
  intro s m
  exact ⟨⟨_, rfl, fun _ _ => BitVec.getLsbD_and, loadA_retire s _ 2 2⟩,
    ⟨_, rfl, fun _ _ => BitVec.getLsbD_or, loadA_retire s _ 2 2⟩,
    ⟨_, rfl, fun _ _ => BitVec.getLsbD_xor, loadA_retire s _ 2 2⟩⟩

/-- Settles O44: BRK ends past its one byte, at the open cost. -/
theorem brkHalts : Obligations.BrkHalts := fun s =>
  congrArg Host.Outcome.next (retire_eq_advanced { s with running := false } 1 Config.brkCycles)

/-- Settles O45: both end past their one byte. -/
theorem noOpsOnlyAdvance : Obligations.NoOpsOnlyAdvance := fun s _ =>
  ⟨congrArg Host.Outcome.next (retire_eq_advanced s 1 2), congrArg Host.Outcome.next (retire_eq_advanced s 1 2)⟩

/-! ## Stores (40_load_store.md section 2) -/

/-- An instruction that ends with one store past its bytes changes that byte and goes on. -/
theorem stores_of_exec {i : Instr} {s : State} {a : Addr} {v : Byte} {bytes : Addr} {cost : Nat}
    (h : exec i s = .next ((s.memWrite a v).retire bytes cost)) : Claims.Stores i s a v bytes.toNat cost := by
  refine ⟨_, h, fun b => s.memRead_memWrite a b v, ?_⟩
  rw [retire_eq_advanced]
  rfl

/-- Settles O30: each of the five stores ends with one store. -/
theorem storesWriteOneByte : Obligations.StoresWriteOneByte := by
  intro s z w
  exact ⟨stores_of_exec (bytes := 2) rfl, stores_of_exec (bytes := 2) rfl, stores_of_exec (bytes := 3) rfl,
    stores_of_exec (bytes := 2) rfl, stores_of_exec (bytes := 2) rfl⟩

/-- Settles O26: each address as a number. -/
theorem effectiveAddressesOfTheModes : Obligations.EffectiveAddressesOfTheModes := by
  intro s z w
  refine ⟨toNat_zext8 z, ?_, rfl, toNat_stackAddr s.SP⟩
  rw [State.eaZpx, toNat_zext8, BitVec.toNat_add]

/-- Settles O28: the store reaches the opcode byte of the next fetch, and neither byte after it. -/
theorem storeIsSeenByTheNextFetch : Obligations.StoreIsSeenByTheNextFetch := by
  intro s hrun hfetch
  refine ⟨(s.memWrite (s.PC + 3) s.A).retire 3 4, by rw [step_running hrun, hfetch]; rfl, ?_⟩
  have hread (b : Addr) : ((s.memWrite (s.PC + 3) s.A).retire 3 4).memRead b =
      if b = s.PC + 3 then s.A else s.memRead b := s.memRead_memWrite (s.PC + 3) b s.A
  have hfour : s.PC + 3 + 1 = s.PC + 4 := add_assoc s.PC 3 1
  have hfive : s.PC + 3 + 2 = s.PC + 5 := add_assoc s.PC 3 2
  rw [State.fetchInstr, State.retire_PC, State.memWrite_PC, hfour, hfive, hread, hread, hread, if_pos rfl,
    if_neg (by bv_omega), if_neg (by bv_omega)]

/-! ## ADC and SBC (41_arithmetic_logic_compare.md R135, R136) -/

/-- The mask of the overflow tests picks the sign bit. -/
theorem and_signMask_ne_zero (x : Byte) : ((x &&& 0x80) != 0) = x.getLsbD 7 := by
  revert x
  decide

theorem toInt_eq_toNat_of_sign (x : Byte) : x.toInt = if 128 ≤ x.toNat then (x.toNat : Int) - 256 else x.toNat := by
  rw [BitVec.toInt_eq_toNat_cond]
  split_ifs <;> omega

theorem addC_result_toNat (a m : Byte) (c : Bool) :
    (addC a m c).result.toNat = (a.toNat + m.toNat + c.toNat) % 256 :=
  BitVec.toNat_ofNat _ _

/-- Both operands differ in sign from the result exactly when the signed sum leaves the range of a byte. -/
theorem addC_overflow (a m : Byte) (c : Bool) : (addC a m c).overflow =
    decide (a.toInt + m.toInt + c.toNat < -128 ∨ 127 < a.toInt + m.toInt + c.toNat) := by
  have hr := addC_result_toNat a m c
  have hc := c.toNat_le
  have ha := a.isLt
  have hm := m.isLt
  rw [toInt_eq_toNat_of_sign, toInt_eq_toNat_of_sign]
  change (((a ^^^ (addC a m c).result) &&& (m ^^^ (addC a m c).result) &&& 0x80) != 0) = _
  rw [and_signMask_ne_zero, BitVec.getLsbD_and, BitVec.getLsbD_xor, BitVec.getLsbD_xor, getLsbD_seven, getLsbD_seven,
    getLsbD_seven, hr, Bool.eq_iff_iff]
  simp only [Bool.and_eq_true, bne_iff_ne, ne_eq, decide_eq_decide, decide_eq_true_eq]
  split_ifs <;> omega

theorem addsWithCarry_setArith (s : State) (m : Byte) (bytes : Addr) (cost : Nat) :
    Claims.AddsWithCarry s ((s.setArith (addC s.A m s.C)).retire bytes cost) m bytes.toNat cost :=
  ⟨addC_result_toNat s.A m s.C, rfl, addC_overflow s.A m s.C, setArith_retire s _ bytes cost⟩

/-- Settles O31: both forms end with `AddC` of A and the operand. -/
theorem adcAddsWithCarry : Obligations.AdcAddsWithCarry := fun s m z =>
  ⟨⟨_, rfl, addsWithCarry_setArith s m 2 2⟩, ⟨_, rfl, addsWithCarry_setArith s (s.operandZp z) 2 3⟩⟩

theorem subC_result_toNat (a m : Byte) (c : Bool) :
    ((subC a m c).result.toNat : Int) = (a.toNat - m.toNat - (1 - c.toNat)) % 256 := by
  rw [subC, BitVec.toNat_ofInt]
  omega

/-- The operands differ in sign, and A from the result, exactly when the signed difference leaves the range of a byte. -/
theorem subC_overflow (a m : Byte) (c : Bool) : (subC a m c).overflow =
    decide (a.toInt - m.toInt - (1 - c.toNat) < -128 ∨ 127 < a.toInt - m.toInt - (1 - c.toNat)) := by
  have hr := subC_result_toNat a m c
  have hc := c.toNat_le
  have ha := a.isLt
  have hm := m.isLt
  rw [toInt_eq_toNat_of_sign, toInt_eq_toNat_of_sign]
  change (((a ^^^ m) &&& (a ^^^ (subC a m c).result) &&& 0x80) != 0) = _
  rw [and_signMask_ne_zero, BitVec.getLsbD_and, BitVec.getLsbD_xor, BitVec.getLsbD_xor, getLsbD_seven, getLsbD_seven,
    getLsbD_seven, Bool.eq_iff_iff]
  simp only [Bool.and_eq_true, bne_iff_ne, ne_eq, decide_eq_decide, decide_eq_true_eq]
  split_ifs <;> omega

/-- Settles O32: SBC ends with `SubC` of A and the operand. -/
theorem sbcSubtractsWithBorrow : Obligations.SbcSubtractsWithBorrow := fun s m =>
  ⟨_, rfl, subC_result_toNat s.A m s.C, rfl, subC_overflow s.A m s.C, setArith_retire s _ 2 2⟩

/-- Settles O33: the comparison and the exact difference disagree only where the borrow alone makes it negative. -/
theorem subCarryIsNoBorrowExceptOnEqual : Obligations.SubCarryIsNoBorrowExceptOnEqual := by
  intro a m c
  rw [subC, decide_eq_decide, BitVec.toNat_eq]
  cases c with
  | false => simp; omega
  | true => simp

end Sys2Proof.Machine

/-! ## The stack (20_memory.md R58, 43_control_transfer.md R191, R192) -/

namespace Sys2Proof.Machine

/-- `memRead_memWrite` for the store of a push. -/
theorem State.memRead_push (s : State) (v : Byte) (b : Addr) :
    (s.push v).memRead b = if b = stackAddr s.SP then v else s.memRead b :=
  s.memRead_memWrite (stackAddr s.SP) b v

theorem eq_stackAddr_iff (b : Addr) (sp : Byte) : b = stackAddr sp ↔ b.toNat = 0x0100 + sp.toNat := by
  rw [BitVec.toNat_eq, toNat_stackAddr]

theorem stackAddr_ne_stackAddr_sub_one (sp : Byte) : stackAddr sp ≠ stackAddr (sp - 1) := fun h => by
  have hsp := stackAddr_injective h
  bv_omega

/-- Pop reads the slot above SP, at its number. -/
theorem pop_fst_eq_read (s : State) : s.pop.1 = s.mem.read (0x0100 + (s.SP.toNat + 1) % 256) := by
  rw [State.pop_fst, State.memRead, toNat_stackAddr, toNat_add_one]

/-- Of all instructions only RTS and JSR leave another SP. -/
theorem exec_SP_of_ne {i : Instr} (hrts : i ≠ .rts) (hjsr : ∀ w, i ≠ .jsr w) (s : State) :
    ∃ t, exec i s = .next t ∧ t.SP = s.SP := by
  cases i with
  | rts => exact absurd rfl hrts
  | jsr w => exact absurd rfl (hjsr w)
  | _ => exact ⟨_, rfl, rfl⟩

/-- Settles O25: the laws of push and pop, and RTS and JSR as two pops and two pushes. -/
theorem pushAndPop : Obligations.PushAndPop := by
  refine ⟨fun s v => ⟨fun b => ?_, toNat_sub_one s.SP, rfl, pop_fst_eq_read s, toNat_add_one s.SP, rfl⟩, fun i s => ?_⟩
  · simp only [s.memRead_push, eq_stackAddr_iff]
  · by_cases hrts : i = .rts
    · subst hrts
      exact ⟨_, rfl, fun _ => .inl ⟨rfl, rfl⟩⟩
    · by_cases hjsr : ∃ w, i = .jsr w
      · obtain ⟨w, rfl⟩ := hjsr
        exact ⟨_, rfl, fun _ => .inr ⟨w, rfl, rfl⟩⟩
      · obtain ⟨t, hexec, hsp⟩ := exec_SP_of_ne hrts (not_exists.mp hjsr) s
        exact ⟨t, hexec, fun h => absurd hsp h⟩

/-- `call + 2` on the stack: what JSR does before it transfers control. -/
def State.pushReturn (s : State) : State := (s.push (highByte s.returnAddr)).push (lowByte s.returnAddr)

theorem exec_jsr (w : Addr) (s : State) : exec (.jsr w) s = .next (s.pushReturn.transfer w 6) := rfl

theorem pushReturn_SP_add_one (s : State) : s.pushReturn.SP + 1 = s.SP - 1 :=
  sub_add_cancel (s.SP - 1) 1

theorem pushReturn_SP_add_two (s : State) : s.pushReturn.SP + 2 = s.SP := by
  rw [State.pushReturn, State.push_SP, State.push_SP]
  bv_omega

/-- The return address stands in two slots, the low byte below the high byte. -/
theorem memRead_pushReturn (s : State) (b : Addr) :
    s.pushReturn.memRead b =
      if b = stackAddr s.SP then highByte s.returnAddr
      else if b = stackAddr (s.SP - 1) then lowByte s.returnAddr else s.memRead b := by
  rw [State.pushReturn, State.memRead_push, State.memRead_push, State.push_SP]
  by_cases hb : b = stackAddr s.SP
  · rw [if_neg (hb ▸ stackAddr_ne_stackAddr_sub_one s.SP), if_pos hb, if_pos hb]
  · rw [if_neg hb, if_neg hb]

theorem memRead_pushReturn_low (s : State) :
    s.pushReturn.memRead (stackAddr (s.pushReturn.SP + 1)) = lowByte s.returnAddr := by
  rw [memRead_pushReturn, pushReturn_SP_add_one, if_neg (stackAddr_ne_stackAddr_sub_one s.SP).symm, if_pos rfl]

theorem memRead_pushReturn_high (s : State) :
    s.pushReturn.memRead (stackAddr (s.pushReturn.SP + 2)) = highByte s.returnAddr := by
  rw [memRead_pushReturn, pushReturn_SP_add_two, if_pos rfl]

theorem toNat_returnAddr (s : State) : s.returnAddr.toNat = (s.PC.toNat + 2) % 65536 :=
  BitVec.toNat_add s.PC 2

theorem highByte_returnAddr (s : State) : highByte s.returnAddr = BitVec.ofNat 8 ((s.PC.toNat + 2) % 65536 / 256) := by
  apply BitVec.eq_of_toNat_eq
  rw [toNat_highByte, toNat_returnAddr, BitVec.toNat_ofNat]
  omega

theorem lowByte_returnAddr (s : State) : lowByte s.returnAddr = BitVec.ofNat 8 (s.PC.toNat + 2) := by
  apply BitVec.eq_of_toNat_eq
  rw [toNat_lowByte, toNat_returnAddr, BitVec.toNat_ofNat]
  omega

/-- Settles O40: JSR ends with the return address on the stack and a transfer. -/
theorem jsrPushesTheReturnAddress : Obligations.JsrPushesTheReturnAddress := by
  intro s w
  refine ⟨_, exec_jsr w s, fun b => ?_, ?_, rfl⟩
  · rw [← highByte_returnAddr, ← lowByte_returnAddr]
    exact memRead_pushReturn s b
  · rw [State.transfer_SP, State.pushReturn, State.push_SP, State.push_SP]
    bv_omega

/-- RTS from any state: the slots above SP, low byte first. -/
theorem exec_rts (s : State) :
    exec .rts s = .next (({ s with SP := s.SP + 2 } : State).transfer
      (joinBytes (s.memRead (stackAddr (s.SP + 2))) (s.memRead (stackAddr (s.SP + 1))) + 1) 6) := by
  have htwo : s.SP + 1 + 1 = s.SP + 2 := add_assoc s.SP 1 1
  rw [← htwo]
  rfl

/-- Settles O41: RTS goes past the joined bytes. -/
theorem rtsPopsTheReturnAddress : Obligations.RtsPopsTheReturnAddress := by
  intro s
  refine ⟨_, exec_rts s, ?_, BitVec.toNat_add s.SP 2, rfl⟩
  rw [State.transfer_PC, BitVec.toNat_add, toNat_joinBytes]
  rfl

/-- RTS after JSR joins the two bytes of `call + 2`. -/
theorem exec_rts_after_jsr (w : Addr) (s : State) :
    exec .rts (s.pushReturn.transfer w 6) =
      .next (({ s.pushReturn.transfer w 6 with SP := s.SP } : State).transfer (s.returnAddr + 1) 6) := by
  rw [exec_rts, ← joinBytes_high_low s.returnAddr, ← memRead_pushReturn_low, ← memRead_pushReturn_high]
  exact congrArg (fun sp => Host.Outcome.next (({ s.pushReturn.transfer w 6 with SP := sp } : State).transfer _ 6))
    (pushReturn_SP_add_two s)

/-- Settles O42: RTS goes one past the address that JSR pushed, and takes SP back over both slots. -/
theorem callThenReturnComesBack : Obligations.CallThenReturnComesBack := by
  intro s w
  refine ⟨_, _, exec_jsr w s, exec_rts_after_jsr w s, ?_, rfl⟩
  have hnext : s.returnAddr + 1 = s.PC + 3 := add_assoc s.PC 2 1
  rw [State.transfer_PC, hnext]
  exact BitVec.toNat_add s.PC 3

/-! ## Jumps and branches (43_control_transfer.md R190, R193) -/

/-- Settles O39: the decoder joins the operand bytes, and JMP transfers to them. -/
theorem jmpGoesToItsOperand : Obligations.JmpGoesToItsOperand := fun _ lo hi =>
  ⟨joinBytes hi lo, toNat_joinBytes hi lo, decode_of_length_three rfl lo hi [], _, rfl, rfl⟩

theorem toNat_afterBranch (s : State) : s.afterBranch.toNat = (s.PC.toNat + 2) % 65536 :=
  BitVec.toNat_add s.PC 2

/-- The target of a branch as a number: the displacement is signed, and the sum wraps (30_encoding.md R89). -/
theorem toNat_branchTarget (s : State) (d : Byte) :
    ((s.branchTarget d).toNat : Int) = (s.PC.toNat + 2 + d.toInt) % 65536 := by
  rw [State.branchTarget, sext8_eq_ofInt, BitVec.toNat_add, toNat_afterBranch, BitVec.toNat_ofInt]
  omega

/-- The page test compares the numbers of the two pages. -/
theorem highByte_eq_iff (v w : Addr) : highByte v = highByte w ↔ v.toNat / 256 = w.toNat / 256 := by
  rw [BitVec.toNat_eq, toNat_highByte, toNat_highByte]

theorem branchesIf_of_exec {i : Instr} {s : State} {pred : Bool} {d : Byte}
    (h : exec i s = .next (s.branch pred d)) : Claims.BranchesIf i s pred d := by
  refine ⟨_, h, rfl, ?_, ?_⟩
  · rintro rfl
    exact ⟨toNat_afterBranch s, rfl⟩
  · rintro rfl
    refine ⟨toNat_branchTarget s d, ?_⟩
    simp [branchCost, highByte_eq_iff, toNat_afterBranch]

/-- Settles O43: each of the six ends with `Branch` on its flag. -/
theorem branchesFollowTheirFlag : Obligations.BranchesFollowTheirFlag := by
  intro s d
  exact ⟨branchesIf_of_exec rfl, branchesIf_of_exec rfl, branchesIf_of_exec rfl, branchesIf_of_exec rfl,
    branchesIf_of_exec rfl, branchesIf_of_exec rfl⟩

/-- A distance in the range of a signed byte is read back from the displacement byte (45_assembler.md R253). -/
theorem toInt_displacement {target address : Nat} (hlow : (-128 : Int) ≤ target - (address + 2))
    (hhigh : (target : Int) - (address + 2) ≤ 127) : (displacement target address).toInt = target - (address + 2) := by
  rw [displacement, BitVec.toInt_ofInt, Int.bmod_eq_of_le (by omega) (by omega)]

theorem exec_eq_branch_taken {i : Instr} {s : State} {d : Byte}
    (hi : (i = .bcc d ∧ s.C = false) ∨ (i = .bcs d ∧ s.C = true) ∨ (i = .beq d ∧ s.Z = true) ∨
      (i = .bne d ∧ s.Z = false) ∨ (i = .bmi d ∧ s.N = true) ∨ (i = .bpl d ∧ s.N = false)) :
    exec i s = .next (s.branch true d) := by
  obtain ⟨rfl, h⟩ | ⟨rfl, h⟩ | ⟨rfl, h⟩ | ⟨rfl, h⟩ | ⟨rfl, h⟩ | ⟨rfl, h⟩ := hi
  · rw [exec, execBcc, h]; rfl
  · rw [exec, execBcs, h]
  · rw [exec, execBeq, h]
  · rw [exec, execBne, h]; rfl
  · rw [exec, execBmi, h]
  · rw [exec, execBpl, h]; rfl

/-- Settles O53: the displacement is the distance from `call + 2`, and a taken branch adds it there. -/
theorem takenBranchReachesItsTarget : Obligations.TakenBranchReachesItsTarget := by
  intro s target i htarget hlow hhigh hi
  refine ⟨_, exec_eq_branch_taken hi, ?_⟩
  have hpc := toNat_branchTarget s (displacement target s.PC.toNat)
  rw [toInt_displacement hlow hhigh] at hpc
  rw [State.branch_PC, if_pos rfl]
  omega

end Sys2Proof.Machine

/-! ## What an instruction does not write (10_state.md sections 1, 4, 5 and 6) -/

namespace Sys2Proof.Machine

section Writers

variable {i : Instr} {s t : State}

/-- 10_state.md R26: V is the overflow of ADC and SBC. -/
theorem writer_of_V_ne (h : exec i s = .next t) (hV : t.V ≠ s.V) :
    ∃ b, i = .adcImm b ∨ i = .adcZp b ∨ i = .sbcImm b := by
  cases i with
  | adcImm b | adcZp b | sbcImm b => exact ⟨b, by simp⟩
  | _ => cases h; exact absurd rfl hV

/-- 10_state.md R26: C is the carry of ADC, SBC and the compares, and CLC and SEC set it. -/
theorem writer_of_C_ne (h : exec i s = .next t) (hC : t.C ≠ s.C) :
    i = .clc ∨ i = .sec ∨
      ∃ b, i = .adcImm b ∨ i = .adcZp b ∨ i = .sbcImm b ∨ i = .cmpImm b ∨ i = .cmpZp b ∨ i = .cmpZpx b ∨
        i = .cpxImm b ∨ i = .cpxZp b ∨ i = .cpyImm b ∨ i = .cpyZp b := by
  cases i with
  | clc => exact .inl rfl
  | sec => exact .inr (.inl rfl)
  | adcImm b | adcZp b | sbcImm b | cmpImm b | cmpZp b | cmpZpx b | cpxImm b | cpxZp b | cpyImm b | cpyZp b =>
    exact .inr (.inr ⟨b, by simp⟩)
  | _ => cases h; exact absurd rfl hC

/-- 10_state.md section 5: each of these ends without `SetNZ`. -/
theorem NZ_eq_of_not_writer (h : exec i s = .next t)
    (hi : i = .clc ∨ i = .sec ∨ i = .rts ∨ i = .brk ∨ i = .nop ∨
      (∃ b, i = .staZp b ∨ i = .staZpx b ∨ i = .stxZp b ∨ i = .styZp b ∨ i = .bcc b ∨ i = .bcs b ∨ i = .beq b ∨
        i = .bne b ∨ i = .bmi b ∨ i = .bpl b ∨ i = .unimplemented b) ∨
      ∃ w, i = .staAbs w ∨ i = .jmp w ∨ i = .jsr w) : t.N = s.N ∧ t.Z = s.Z := by
  cases i with
  | clc | sec | rts | brk | nop | staZp | staZpx | stxZp | styZp | bcc | bcs | beq | bne | bmi | bpl | unimplemented
  | staAbs | jmp | jsr => cases h; exact ⟨rfl, rfl⟩
  | _ => simp at hi

theorem writer_of_A_ne (h : exec i s = .next t) (hA : t.A ≠ s.A) :
    i = .txa ∨ i = .tya ∨ (∃ w, i = .ldaAbs w) ∨
      ∃ b, i = .ldaImm b ∨ i = .ldaZp b ∨ i = .ldaZpx b ∨ i = .adcImm b ∨ i = .adcZp b ∨ i = .sbcImm b ∨
        i = .andImm b ∨ i = .oraImm b ∨ i = .eorImm b := by
  cases i with
  | txa => exact .inl rfl
  | tya => exact .inr (.inl rfl)
  | ldaAbs w => exact .inr (.inr (.inl ⟨w, rfl⟩))
  | ldaImm b | ldaZp b | ldaZpx b | adcImm b | adcZp b | sbcImm b | andImm b | oraImm b | eorImm b =>
    exact .inr (.inr (.inr ⟨b, by simp⟩))
  | _ => cases h; exact absurd rfl hA

theorem writer_of_X_ne (h : exec i s = .next t) (hX : t.X ≠ s.X) :
    i = .inx ∨ i = .dex ∨ i = .tax ∨ ∃ b, i = .ldxImm b ∨ i = .ldxZp b := by
  cases i with
  | inx | dex | tax => simp
  | ldxImm b | ldxZp b => exact .inr (.inr (.inr ⟨b, by simp⟩))
  | _ => cases h; exact absurd rfl hX

theorem writer_of_Y_ne (h : exec i s = .next t) (hY : t.Y ≠ s.Y) :
    i = .iny ∨ i = .dey ∨ i = .tay ∨ ∃ b, i = .ldyImm b ∨ i = .ldyZp b := by
  cases i with
  | iny | dey | tay => simp
  | ldyImm b | ldyZp b => exact .inr (.inr (.inr ⟨b, by simp⟩))
  | _ => cases h; exact absurd rfl hY

theorem writer_of_SP_ne (h : exec i s = .next t) (hSP : t.SP ≠ s.SP) : i = .rts ∨ ∃ w, i = .jsr w := by
  by_contra hne
  obtain ⟨hrts, hjsr⟩ := not_or.mp hne
  obtain ⟨u, hexec, hkeep⟩ := exec_SP_of_ne hrts (not_exists.mp hjsr) s
  rw [hexec] at h
  cases h
  exact hSP hkeep

theorem writer_of_running_ne (h : exec i s = .next t) (hrun : t.running ≠ s.running) :
    i = .brk ∧ t.running = false := by
  by_cases hi : i = .brk
  · subst hi
    cases h
    exact ⟨rfl, rfl⟩
  · obtain ⟨u, hexec, hkeep⟩ := exec_running_of_ne_brk hi s
    rw [hexec] at h
    cases h
    exact absurd hkeep hrun

end Writers

/-- Settles O19: flag by flag. -/
theorem flagsHaveOnlyTheirWriters : Obligations.FlagsHaveOnlyTheirWriters := by
  intro i s
  obtain ⟨t, h, -⟩ := exec_next_steps i s
  exact ⟨t, h, writer_of_V_ne h, writer_of_C_ne h, NZ_eq_of_not_writer h⟩

/-- Settles O20: register by register. -/
theorem registersHaveOnlyTheirWriters : Obligations.RegistersHaveOnlyTheirWriters := by
  intro i s
  obtain ⟨t, h, -⟩ := exec_next_steps i s
  exact ⟨t, h, writer_of_A_ne h, writer_of_X_ne h, writer_of_Y_ne h, writer_of_SP_ne h, writer_of_running_ne h⟩

/-- V and the two counters flow into themselves alone, and each counter by a sum that does not depend on it. -/
theorem exec_with_V_counters (i : Instr) (s : State) (v : Bool) (c k : Nat) : ∃ t u n,
    exec i s = .next t ∧ exec i { s with V := v, cycles := c, steps := k } = .next u ∧
      u = { t with V := u.V, cycles := u.cycles, steps := u.steps } ∧
      t.cycles = s.cycles + n ∧ u.cycles = c + n ∧ t.steps = s.steps + 1 ∧ u.steps = k + 1 := by
  cases i <;> exact ⟨_, _, _, rfl, rfl, rfl, rfl, rfl, rfl, rfl⟩

/-- Settles O23: both counters grow by one sum in the two runs. -/
theorem vAndCountersAreNeverRead : Obligations.VAndCountersAreNeverRead := by
  intro i s v c k
  obtain ⟨t, u, n, ht, hu, hframe, htcycles, hucycles, htsteps, husteps⟩ := exec_with_V_counters i s v c k
  exact ⟨t, u, ht, hu, hframe, by omega, by omega⟩

/-! ## PC and cycles against the Instruction Table (30_encoding.md sections 1 and 8) -/

/-- What transfers no control goes on past its own bytes. -/
theorem exec_PC_of_plain {i : Instr} (hwf : i.wf = true) (hrts : i ≠ .rts) (hjump : ∀ w, i ≠ .jmp w ∧ i ≠ .jsr w)
    (hbranch : ∀ d, i ≠ .bcc d ∧ i ≠ .bcs d ∧ i ≠ .beq d ∧ i ≠ .bne d ∧ i ≠ .bmi d ∧ i ≠ .bpl d) (s : State) :
    ∃ t, exec i s = .next t ∧ t.PC = s.PC + BitVec.ofNat 16 (encode i).length := by
  cases i with
  | rts => exact absurd rfl hrts
  | jmp w | jsr w => simp at hjump
  | bcc d | bcs d | beq d | bne d | bmi d | bpl d => simp at hbranch
  | _ => exact ⟨_, rfl, rfl⟩

/-- Settles O21: the sum of PC and the length, as a number. -/
theorem plainInstructionsGoToTheNext : Obligations.PlainInstructionsGoToTheNext := by
  intro i s hwf hrts hjump hbranch
  obtain ⟨t, hexec, hpc⟩ := exec_PC_of_plain hwf hrts hjump hbranch s
  refine ⟨t, hexec, ?_⟩
  rw [hpc, BitVec.toNat_add, BitVec.toNat_ofNat]
  omega

/-- The numbers of cycles that a Cycles cell allows (30_encoding.md R95, 43_control_transfer.md R193). -/
def CostAllows (n : Nat) : Cost → Prop
  | .fixed m => n = m
  | .halts => n = Config.brkCycles
  | .branch base taken cross => n = base ∨ n = base + taken ∨ n = base + taken + cross

/-- `n` cycles are what the Instruction Table gives the opcode, 2 when it has no row (30_encoding.md R84). -/
def TableAllows (op : Byte) (n : Nat) : Prop :=
  match rowOfOpcode op with
  | some r => CostAllows n r.cost
  | none => n = 2

theorem tableAllows_of_none {op : Byte} (h : rowOfOpcode op = none) (n : Nat) : TableAllows op n ↔ n = 2 := by
  simp [TableAllows, h]

theorem tableAllows_of_row {op : Byte} {r : Row} (h : rowOfOpcode op = some r) (n : Nat) :
    TableAllows op n ↔ CostAllows n r.cost := by
  simp [TableAllows, h]

theorem branchCost_cases (taken : Bool) (old target : Addr) :
    branchCost taken old target = 2 ∨ branchCost taken old target = 3 ∨ branchCost taken old target = 4 := by
  unfold branchCost
  split_ifs <;> simp

/-- Every instruction charges what the table allows its opcode. -/
theorem exec_cycles {i : Instr} {op : Byte} {operands : List Byte} (hwf : i.wf = true)
    (henc : encode i = op :: operands) (s : State) :
    ∃ t n, exec i s = .next t ∧ t.cycles = s.cycles + n ∧ TableAllows op n := by
  cases i with
  | bcc d | bcs d | beq d | bne d | bmi d | bpl d =>
    cases henc
    exact ⟨_, _, rfl, rfl, branchCost_cases ..⟩
  | unimplemented =>
    cases henc
    exact ⟨_, _, rfl, rfl, (tableAllows_of_none (Option.isNone_iff_eq_none.mp hwf) 2).mpr rfl⟩
  | _ =>
    cases henc
    exact ⟨_, _, rfl, rfl, rfl⟩

/-- Settles O22: the cell of the row, case by case. -/
theorem cyclesAreThoseOfTheTable : Obligations.CyclesAreThoseOfTheTable := by
  intro i s op operands hwf henc
  obtain ⟨t, n, hexec, hcycles, hallows⟩ := exec_cycles hwf henc s
  refine ⟨t, hexec, fun hrow => ?_, fun r hrow => ?_⟩
  · rw [tableAllows_of_none hrow] at hallows
    rw [hcycles, hallows]
  · rw [tableAllows_of_row hrow] at hallows
    refine ⟨fun m hcost => ?_, fun hcost => ?_, fun base taken cross hcost => ?_⟩
    · rw [hcost] at hallows
      rw [hcycles, hallows]
    · rw [hcost] at hallows
      rw [hcycles, hallows]
    · rw [hcost] at hallows
      obtain rfl | rfl | rfl := hallows
      · exact .inl hcycles
      · exact .inr (.inl (by omega))
      · exact .inr (.inr (by omega))

/-- A cell that does not halt allows 2 to 6 cycles, in every row of the table. -/
theorem cost_bounds : ∀ r ∈ instructionTable, r.opcode ≠ 0x00 → ∀ n, CostAllows n r.cost → 2 ≤ n ∧ n ≤ 6 := by
  simp only [instructionTable, loadStoreRows, arithmeticRows, registerRows, controlRows, List.cons_append,
    List.nil_append, List.forall_mem_cons, CostAllows]
  simp

theorem tableAllows_bounds {op : Byte} {n : Nat} (hop : op ≠ 0x00) (h : TableAllows op n) : 2 ≤ n ∧ n ≤ 6 := by
  cases hrow : rowOfOpcode op with
  | none =>
    obtain rfl := (tableAllows_of_none hrow n).mp h
    decide
  | some r =>
    obtain ⟨hmem, rfl⟩ := mem_of_rowOfOpcode hrow
    exact cost_bounds r hmem hop n ((tableAllows_of_row hrow n).mp h)

/-- Settles O18: the byte at PC is the opcode of the instruction that a RUNNING step executes. -/
theorem countersGrowWithEveryStep : Obligations.CountersGrowWithEveryStep := by
  intro s
  cases hrun : s.running with
  | false => exact ⟨s, step_halted hrun, by simp⟩
  | true =>
    by_cases hop : s.memRead s.PC = 0x00
    · exact ⟨_, step_of_zero hrun hop, by simp [hop]⟩
    · obtain ⟨t, hstep, hsteps⟩ := step_running_next hrun
      obtain ⟨u, n, hexec, hcycles, hallows⟩ := exec_cycles (wf_decodeInstr ..) (encode_decodeInstr ..) s
      obtain rfl : u = t := by
        rw [step_running hrun] at hstep
        simpa using hexec.symm.trans hstep
      have hbounds := tableAllows_bounds hop hallows
      refine ⟨u, hstep, by simp, fun _ => hsteps, fun _ hzero => absurd hzero hop, fun _ _ => ?_⟩
      omega

end Sys2Proof.Machine

/-! ## The procedure that fetches one byte at a time (30_encoding.md R97, 20_memory.md R57 and R66) -/

namespace Sys2Proof.Machine

/-- The byte after the opcode. -/
def State.operandByte (s : State) : Byte := s.memRead (s.PC + 1)

/-- The two bytes after the opcode, low byte first. -/
def State.operandWord (s : State) : Addr := joinBytes (s.memRead (s.PC + 2)) s.operandByte

namespace Run

/-! ### The fetches -/

/-- The run after `n` bytes of the instruction at `s.PC` and the accesses `data` after them. -/
def fetched (s : State) (n : Nat) (data : List Access) : Run :=
  { st := { s with PC := s.PC + BitVec.ofNat 16 n }, log := s.fetchReads n ++ data }

theorem fetch8_start (s : State) : Run.fetch8 { st := s, log := [] } = (s.memRead s.PC, fetched s 1 []) := by
  simp [fetched, fetch8, Run.memRead, Run.set, State.fetchReads]

theorem fetch8_fetched (s : State) (n : Nat) :
    (fetched s n []).fetch8 = (s.memRead (s.PC + BitVec.ofNat 16 n), fetched s (n + 1) []) := by
  simp [fetched, fetch8, Run.memRead, Run.set, State.memRead, State.fetchReads, BitVec.ofNat_add, BitVec.add_assoc]

theorem fetch16_fetched (s : State) :
    (fetched s 1 []).fetch16 = (s.operandWord, fetched s 3 []) := by
  rw [fetch16, fetch8_fetched]
  dsimp only
  rw [fetch8_fetched]
  rfl

theorem memRead_fetched (s : State) (n : Nat) (a : Addr) :
    (fetched s n []).memRead a = (s.memRead a, fetched s n [.read a]) := by
  simp [fetched, Run.memRead, State.memRead]

/-! ### The operand forms, after the opcode byte is fetched (30_encoding.md R90) -/

theorem operandImm_fetched (s : State) :
    (fetched s 1 []).operandImm = (s.operandByte, fetched s 2 []) :=
  fetch8_fetched s 1

theorem eaZp_fetched (s : State) :
    (fetched s 1 []).eaZp = (s.eaZp s.operandByte, fetched s 2 []) := by
  rw [eaZp, fetch8_fetched]
  rfl

theorem ofNat_sum_mod_256 (z x : Byte) : BitVec.ofNat 16 ((z.toNat + x.toNat) % 256) = zext8 (z + x) := by
  apply BitVec.eq_of_toNat_eq
  rw [toNat_zext8, BitVec.toNat_add, BitVec.toNat_ofNat]
  omega

theorem eaZpx_fetched (s : State) :
    (fetched s 1 []).eaZpx = (s.eaZpx s.operandByte, fetched s 2 []) := by
  rw [eaZpx, fetch8_fetched, State.eaZpx, ← ofNat_sum_mod_256]
  rfl

theorem eaAbs_fetched (s : State) :
    (fetched s 1 []).eaAbs = (s.eaAbs s.operandWord, fetched s 3 []) :=
  fetch16_fetched s

theorem operandZp_fetched (s : State) :
    (fetched s 1 []).operandZp =
      (s.operandZp s.operandByte, fetched s 2 [.read (s.eaZp s.operandByte)]) := by
  rw [operandZp, eaZp_fetched]
  exact memRead_fetched s 2 _

theorem operandZpx_fetched (s : State) :
    (fetched s 1 []).operandZpx =
      (s.operandZpx s.operandByte, fetched s 2 [.read (s.eaZpx s.operandByte)]) := by
  rw [operandZpx, eaZpx_fetched]
  exact memRead_fetched s 2 _

theorem operandAbs_fetched (s : State) :
    (fetched s 1 []).operandAbs =
      (s.operandAbs s.operandWord, fetched s 3 [.read (s.eaAbs s.operandWord)]) := by
  rw [operandAbs, eaAbs_fetched]
  exact memRead_fetched s 3 _

/-! ### The instruction rules -/

/-- The end of the procedure: the cost that the table gives the opcode, and one step (30_encoding.md R97). -/
def finish (r : Run) (op : Byte) : State :=
  { r.st with cycles := r.st.cycles + opcodeCost op, steps := r.st.steps + 1 }

/-- The run `r` of `i` from `s` ends where `exec` does, with the accesses of the row of `i`. -/
def Agrees (r : Run) (op : Byte) (i : Instr) (s : State) : Prop :=
  exec i s = .next (r.finish op) ∧ r.log = accesses i s

theorem branchTarget_eq_ofInt (s : State) (d : Byte) :
    s.branchTarget d = BitVec.ofInt 16 (s.afterBranch.toNat + d.toInt) := by
  rw [State.branchTarget, sext8_eq_ofInt, BitVec.ofInt_add, BitVec.ofInt_natCast, BitVec.ofNat_toNat,
    BitVec.setWidth_eq]

theorem branch_fetched_of_not {s : State} {pred : State → Bool} (h : pred (fetched s 2 []).st = false) :
    (fetched s 1 []).branch pred = fetched s 2 [] := by
  simp [branch, fetch8_fetched, h]

/-- A taken branch charges one cycle, and one more for another page, before the base cost. -/
theorem branch_fetched_of_taken {s : State} {pred : State → Bool} (h : pred (fetched s 2 []).st = true) :
    (fetched s 1 []).branch pred =
      { st := { s with
          PC := s.branchTarget s.operandByte
          cycles := s.cycles + 1 +
            if highByte s.afterBranch = highByte (s.branchTarget s.operandByte) then 0 else 1 }
        log := s.fetchReads 2 ++ [] } := by
  simp only [branch, fetch8_fetched, h, if_true, highByte_eq_iff, branchTarget_eq_ofInt, ne_eq, ite_not]
  rfl

theorem branchCost_true_eq (old target : Addr) :
    branchCost true old target = 1 + (if highByte old = highByte target then 0 else 1) + 2 := by
  by_cases h : highByte old = highByte target
  · simp [branchCost, h]
  · simp [branchCost, h]

/-- Both ways of charging a branch come to the same sum. -/
theorem branch_fetched_agrees {s : State} {pred : State → Bool} {op d : Byte} {i : Instr} (hcost : opcodeCost op = 2)
    (hd : d = s.operandByte) (hexec : exec i s = .next (s.branch (pred (fetched s 2 []).st) d))
    (hrow : accesses i s = s.fetchReads 2) : Agrees ((fetched s 1 []).branch pred) op i s := by
  subst hd
  rw [Agrees, hexec, hrow, finish, hcost]
  cases hpred : pred (fetched s 2 []).st with
  | false =>
    rw [branch_fetched_of_not hpred]
    exact ⟨rfl, List.append_nil _⟩
  | true =>
    rw [branch_fetched_of_taken hpred]
    refine ⟨?_, List.append_nil _⟩
    rw [State.branch, if_pos rfl, branchCost_true_eq, State.transfer]
    simp only [Nat.add_assoc]

/-- An absolute operand is its two bytes in memory. -/
theorem eq_operandWord {w : Addr} {s : State}
    (h : [lowByte w, highByte w] = [s.operandByte, s.memRead (s.PC + 2)].take [lowByte w, highByte w].length) :
    w = s.operandWord := by
  obtain ⟨hlow, hhigh⟩ : lowByte w = s.operandByte ∧ highByte w = s.memRead (s.PC + 2) := by simpa using h
  rw [State.operandWord, ← hlow, ← hhigh, joinBytes_high_low]

theorem jsr_fetched_agrees {w : Addr} {s : State} (hw : w = s.operandWord) :
    Agrees ((fetched s 1 []).execute (.jsr w)) 0x20 (.jsr w) s := by
  subst hw
  have hret : (fetched s 3 []).st.PC - 1 = s.returnAddr := by
    change s.PC + 3 - 1 = s.PC + 2
    bv_omega
  rw [execute, fetch16_fetched]
  dsimp only
  rw [hret]
  exact ⟨rfl, rfl⟩

theorem rts_fetched_agrees (s : State) : Agrees ((fetched s 1 []).execute .rts) 0x60 .rts s := by
  have htwo : s.SP + 2 = s.SP + 1 + 1 := (add_assoc s.SP 1 1).symm
  rw [Agrees, exec_rts, accesses, htwo]
  exact ⟨rfl, rfl⟩

theorem ofNat_toNat_add_one (v : Byte) : BitVec.ofNat 8 (v.toNat + 1) = v + 1 := by
  simp [BitVec.ofNat_add]

theorem ofInt_toNat_sub_one (v : Byte) : BitVec.ofInt 8 (v.toNat - 1) = v - 1 :=
  ofInt_toNat_sub_toNat v 1

/-- Each instruction whose operand bytes are those after its opcode in memory does by its rule what `exec` does. -/
theorem execute_agrees {i : Instr} {op : Byte} {operands : List Byte} {s : State} (hwf : i.wf = true)
    (henc : encode i = op :: operands)
    (hops : operands = [s.operandByte, s.memRead (s.PC + 2)].take operands.length) :
    Agrees ((fetched s 1 []).execute i) op i s := by
  cases i with
  | ldaImm v | ldxImm v | ldyImm v | adcImm v | sbcImm v | andImm v | oraImm v | eorImm v | cmpImm v | cpxImm v
  | cpyImm v =>
    cases henc
    obtain rfl : v = s.operandByte := by simpa using hops
    rw [execute, operandImm_fetched]
    exact ⟨rfl, rfl⟩
  | ldaZp z | ldxZp z | ldyZp z | adcZp z | cmpZp z | cpxZp z | cpyZp z =>
    cases henc
    obtain rfl : z = s.operandByte := by simpa using hops
    rw [execute, operandZp_fetched]
    exact ⟨rfl, rfl⟩
  | ldaZpx z | cmpZpx z =>
    cases henc
    obtain rfl : z = s.operandByte := by simpa using hops
    rw [execute, operandZpx_fetched]
    exact ⟨rfl, rfl⟩
  | staZp z | stxZp z | styZp z =>
    cases henc
    obtain rfl : z = s.operandByte := by simpa using hops
    rw [execute, eaZp_fetched]
    exact ⟨rfl, rfl⟩
  | staZpx z =>
    cases henc
    obtain rfl : z = s.operandByte := by simpa using hops
    rw [execute, eaZpx_fetched]
    exact ⟨rfl, rfl⟩
  | ldaAbs w =>
    cases henc
    obtain rfl := eq_operandWord hops
    rw [execute, operandAbs_fetched]
    exact ⟨rfl, rfl⟩
  | staAbs w =>
    cases henc
    obtain rfl := eq_operandWord hops
    rw [execute, eaAbs_fetched]
    exact ⟨rfl, rfl⟩
  | jmp w =>
    cases henc
    obtain rfl := eq_operandWord hops
    rw [execute, fetch16_fetched]
    exact ⟨rfl, rfl⟩
  | jsr w =>
    cases henc
    exact jsr_fetched_agrees (eq_operandWord hops)
  | rts =>
    cases henc
    exact rts_fetched_agrees s
  | bcc d | bne d | bpl d =>
    cases henc
    exact branch_fetched_agrees rfl (by simpa using hops) (by rw [beq_false]; rfl) rfl
  | bcs d | beq d | bmi d =>
    cases henc
    exact branch_fetched_agrees rfl (by simpa using hops) (by rw [beq_true]; rfl) rfl
  | inx | iny =>
    cases henc
    simp only [execute, ofNat_toNat_add_one]
    exact ⟨rfl, rfl⟩
  | dex | dey =>
    cases henc
    simp only [execute, ofInt_toNat_sub_one]
    exact ⟨rfl, rfl⟩
  | unimplemented =>
    cases henc
    have hcost : opcodeCost op = 2 := by simp [opcodeCost, Option.isNone_iff_eq_none.mp hwf]
    rw [Agrees, finish, hcost]
    exact ⟨rfl, rfl⟩
  | clc | sec | tax | tay | txa | tya | brk | nop =>
    cases henc
    exact ⟨rfl, rfl⟩

/-! ### The step -/

/-- The rules look at no operand bytes but those they fetch themselves. -/
theorem execute_ofForm {mn : Mnemonic} {mode : Mode} {b1 b2 c1 c2 : Byte} {i j : Instr}
    (hi : Instr.ofForm mn mode b1 b2 = some i) (hj : Instr.ofForm mn mode c1 c2 = some j) (r : Run) :
    r.execute i = r.execute j := by
  unfold Instr.ofForm at hi
  split at hi <;> cases hi <;> cases hj <;> rfl

theorem execute_decodeInstr (r : Run) (op b1 b2 c1 c2 : Byte) :
    r.execute (decodeInstr op b1 b2) = r.execute (decodeInstr op c1 c2) := by
  cases hrow : rowOfOpcode op with
  | none => rw [decodeInstr_of_none hrow, decodeInstr_of_none hrow]
  | some row =>
    obtain ⟨hmem, -⟩ := mem_of_rowOfOpcode hrow
    obtain ⟨i, hi⟩ := Option.isSome_iff_exists.mp (ofForm_isSome hmem b1 b2)
    obtain ⟨j, hj⟩ := Option.isSome_iff_exists.mp (ofForm_isSome hmem c1 c2)
    simpa [decodeInstr, hrow, hi, hj] using execute_ofForm hi hj r

end Run

/-- The run of a RUNNING step, its opcode byte fetched and its rule executed. -/
def State.stepRun (s : State) : Run := (Run.fetched s 1 []).execute s.fetchInstr

theorem stepPseudocode_running {s : State} (h : s.running = true) :
    stepPseudocode s =
      (s.stepRun.finish (s.memRead s.PC), (s.stepRun.finish (s.memRead s.PC)).running, s.stepRun.log) := by
  rw [stepPseudocode, if_pos h, Run.fetch8_start]
  dsimp only
  rw [Run.execute_decodeInstr _ _ 0 0 (s.memRead (s.PC + 1)) (s.memRead (s.PC + 2))]
  rfl

theorem stepPseudocode_halted {s : State} (h : s.running = false) : stepPseudocode s = (s, false, []) := by
  simp [stepPseudocode, h]

/-- The operand bytes of the fetched instruction are those after its opcode in memory. -/
theorem stepRun_agrees (s : State) : s.stepRun.Agrees (s.memRead s.PC) s.fetchInstr s :=
  Run.execute_agrees (wf_decodeInstr ..) (encode_decodeInstr ..) (by simp [State.operandByte])

/-- Settles O10: the rule of the fetched instruction ends where `exec` does. -/
theorem stepAgreesWithThePseudocode : Obligations.StepAgreesWithThePseudocode := by
  intro s
  cases hrun : s.running with
  | false =>
    rw [stepPseudocode_halted hrun, stepCommand_of_step (step_halted hrun), hrun]
    exact ⟨step_halted hrun, rfl⟩
  | true =>
    have hstep : step s = .next (s.stepRun.finish (s.memRead s.PC)) :=
      (step_running hrun).trans (stepRun_agrees s).1
    rw [stepPseudocode_running hrun]
    exact ⟨hstep, stepCommand_of_step hstep⟩

/-- Settles O11: the rule of the fetched instruction makes the accesses of its row. -/
theorem stepMakesTheTabledAccesses : Obligations.StepMakesTheTabledAccesses := by
  intro s
  refine ⟨fun hrun => ?_, fun hrun => ?_⟩
  · rw [stepPseudocode_running hrun]
    exact (stepRun_agrees s).2
  · rw [stepPseudocode_halted hrun]

end Sys2Proof.Machine

/-! ## The host's commands (70_reset_and_hazards.md section 1, 60_exceptions.md section 8) -/

namespace Sys2Proof.Machine

/-- Settles O46: `reset()` gives every field but memory the value of a fresh machine, and `load` writes memory anew. -/
theorem resetCommandRestoresTheInitialState : Obligations.ResetCommandRestoresTheInitialState := fun _ _ =>
  ⟨⟨⟨rfl, rfl, rfl, rfl, rfl⟩, ⟨rfl, rfl, rfl, rfl⟩, ⟨rfl, rfl, rfl⟩, fun _ => rfl⟩, rfl, rfl⟩

/-- A stored list is read back byte by byte; before and after it memory is as it was. -/
theorem Memory.read_writeBytes (m : Memory) (a b : Nat) (bs : List Byte) :
    (m.writeBytes a bs).read b = if a ≤ b then bs.getD (b - a) (m.read b) else m.read b := by
  induction bs generalizing m a with
  | nil => simp [writeBytes]
  | cons v bs ih =>
    rw [writeBytes, ih, read_write]
    obtain hlt | rfl | hgt := lt_trichotomy b a
    · rw [if_neg (by omega), if_neg (by omega), if_neg (by omega)]
    · simp
    · obtain ⟨k, rfl⟩ := Nat.exists_eq_add_of_lt hgt
      have hk : a + k + 1 - a = k + 1 := by omega
      have hk' : a + k + 1 - (a + 1) = k := by omega
      rw [if_pos (by omega), if_neg (by omega), if_pos (by omega), hk, hk', List.getD_cons_succ]

theorem loadCommand_of_fits {bytes : List Byte} (h : bytes.length ≤ 0xFE00) (s : State) :
    s.loadCommand bytes = .next (s.loadBytes bytes) :=
  if_pos h

theorem loadCommand_of_too_large {bytes : List Byte} (h : 0xFE00 < bytes.length) (s : State) :
    s.loadCommand bytes = .refused (.loadTooLarge bytes.length) :=
  if_neg (Nat.not_le_of_lt h)

theorem memRead_loadBytes (s : State) (bytes : List Byte) (b : Addr) :
    (s.loadBytes bytes).memRead b = if 0x0200 ≤ b.toNat then bytes.getD (b.toNat - 0x0200) 0 else 0 :=
  Memory.read_writeBytes [] 0x0200 b.toNat bytes

theorem memoryCanonical_loadBytes {bytes : List Byte} (h : bytes.length ≤ 0xFE00) (s : State) :
    (s.loadBytes bytes).MemoryCanonical := by
  have hend : Config.origin + bytes.length ≤ Config.memorySize := by
    simp only [Config.origin, Config.memorySize]
    omega
  exact Memory.wf_writeBytes bytes Memory.wf_nil hend

/-- Settles O47: memory is written from empty, so it is the list and zeros. -/
theorem loadPlacesTheProgram : Obligations.LoadPlacesTheProgram := by
  intro s bytes
  refine ⟨fun h => ?_, fun h => loadCommand_of_too_large h s⟩
  exact ⟨_, loadCommand_of_fits h s, memoryCanonical_loadBytes h s, memRead_loadBytes s bytes, rfl⟩

theorem perform_step_of_step {s t : State} (h : step s = .next t) :
    Command.step.perform s = .next { state := t, reply := .running t.running } :=
  stepCommand_of_step h

theorem perform_load_of_fits {bytes : List Byte} (h : bytes.length ≤ 0xFE00) (s : State) :
    (Command.load bytes).perform s = .next { state := s.loadBytes bytes, reply := .done } := by
  rw [Command.perform, loadCommand_of_fits h, answer]

/-- Settles O48: command by command, `step` by the run state and the byte at PC. -/
theorem commandsMoveTheRunState : Obligations.CommandsMoveTheRunState := by
  intro s
  refine ⟨fun hrun hop => ?_, fun hrun hop => ?_, fun hhalt => ?_, ⟨_, rfl, rfl⟩, fun bytes hfits => ?_, fun _ => rfl⟩
  · obtain ⟨t, hstep, hstill⟩ := step_stays_running_of_ne_zero hrun hop
    exact ⟨t, by rw [perform_step_of_step hstep, hstill], hstill⟩
  · exact ⟨_, perform_step_of_step (step_of_zero hrun hop), rfl⟩
  · rw [perform_step_of_step (step_halted hhalt), hhalt]
  · exact ⟨_, perform_load_of_fits hfits s, rfl⟩

end Sys2Proof.Machine

/-! ## The words of the assembler (45_assembler.md sections 2 and 3) -/

namespace Sys2Proof.Machine

theorem isDecDigit_iff (c : Char) : isDecDigit c = true ↔ 48 ≤ c.toNat ∧ c.toNat ≤ 57 := by
  simp only [isDecDigit, Bool.and_eq_true, decide_eq_true_eq]
  rfl

theorem isIdentStart_iff (c : Char) : isIdentStart c = true ↔ (65 ≤ c.toNat ∧ c.toNat ≤ 90) ∨ c = '_' := by
  simp only [isIdentStart, Bool.or_eq_true, Bool.and_eq_true, decide_eq_true_eq, beq_iff_eq]
  rfl

/-- What begins an identifier begins no literal. -/
theorem isLiteral_of_isIdent {name : Text} (h : isIdent name = true) : isLiteral name = false := by
  match name with
  | [] => rfl
  | c :: cs =>
    have hstart : isIdentStart c = true := by
      simp only [isIdent, Bool.and_eq_true] at h
      exact h.1
    have hdigit : isDecDigit c = false := by
      rw [← Bool.not_eq_true, isDecDigit_iff]
      obtain hletter | rfl := (isIdentStart_iff c).mp hstart
      · omega
      · decide
    have hdollar : c ≠ '$' := by
      rintro rfl
      exact absurd hstart (by decide)
    simp [isLiteral, hdigit, hdollar]

theorem resolve_of_isLiteral {s : Text} (h : isLiteral s = true) (symbols : Symbols) :
    resolve symbols s = .ok (parseLiteral s) :=
  if_pos h

/-- A text after `$` that is no hexadecimal number has the value 0 (45_assembler.md R243). -/
theorem parseLiteral_of_bad_hex {cs : Text} (h : ¬ (cs ≠ [] ∧ ∀ c ∈ cs, isUpperHex c = true)) :
    parseLiteral ('$' :: cs) = 0 := by
  have hbad : (!cs.isEmpty && cs.all isUpperHex) = false := by
    simpa [← Bool.not_eq_true] using h
  simp [parseLiteral, hbad]

/-- So has a text that begins with a digit and is no decimal number. -/
theorem parseLiteral_of_bad_decimal {c : Char} {cs : Text} (hc : isDecDigit c = true)
    (h : ¬ ∀ d ∈ cs, isDecDigit d = true) : parseLiteral (c :: cs) = 0 := by
  have hdollar : c ≠ '$' := by
    rintro rfl
    exact absurd hc (by decide)
  have hbad : (c :: cs).all isDecDigit = false := by
    simpa [← Bool.not_eq_true, hc] using h
  simp [parseLiteral, hdollar, hbad]

theorem resolve_of_undefined {name : Text} {symbols : Symbols} (hname : isIdent name = true)
    (h : symbols.lookup name = none) : resolve symbols name = .ok 0 := by
  simp [resolve, isLiteral_of_isIdent hname, hname, Symbols.value, h]

/-- Settles O54: the two literals by `ParseLiteral`, the label by the symbol table. -/
theorem silentDegradationsGiveZero : Obligations.SilentDegradationsGiveZero := by
  refine ⟨fun cs hbad symbols => ?_, fun c cs hc hbad symbols => ?_, fun _ _ => resolve_of_undefined⟩
  · rw [resolve_of_isLiteral rfl, parseLiteral_of_bad_hex hbad]
  · rw [resolve_of_isLiteral (by simp [isLiteral, hc]), parseLiteral_of_bad_decimal hc hbad]

end Sys2Proof.Machine

/-! ## The layout of an assembled program (45_assembler.md section 5) -/

namespace Sys2Proof.Machine

/-- The row that a text selects is a row of the Instruction Table. -/
theorem mem_of_rowOfText {t : Text} {row : Row} {v : Text} (h : rowOfText t = .ok (row, v)) :
    row ∈ instructionTable := by
  simp only [rowOfText] at h
  split at h
  · cases h
  · split at h
    · cases h
    · split at h
      · cases h
      · next hform =>
        cases h
        exact (mem_of_rowOfForm hform).1

/-- Records that stand one behind the other from `a` to `e`, each as long as the row its text selects. -/
def LaidOut (a : Nat) : List Record → Nat → Prop
  | [], e => e = a
  | r :: rs, e => r.address = a ∧ ∃ row v, rowOfText r.text = .ok (row, v) ∧ LaidOut (a + row.bytes) rs e

theorem LaidOut.append {a b e : Nat} {rs qs : List Record} (h : LaidOut a rs b) (hq : LaidOut b qs e) :
    LaidOut a (rs ++ qs) e := by
  induction rs generalizing a with
  | nil =>
    cases h
    exact hq
  | cons r rs ih =>
    obtain ⟨haddr, row, v, hrow, hrest⟩ := h
    exact ⟨haddr, row, v, hrow, ih hrest⟩

theorem LaidOut.le {a e : Nat} {rs : List Record} (h : LaidOut a rs e) : a ≤ e := by
  induction rs generalizing a with
  | nil => exact le_of_eq h.symm
  | cons r rs ih =>
    obtain ⟨-, row, v, -, hrest⟩ := h
    exact (Nat.le_add_right a row.bytes).trans (ih hrest)

/-- The first of a laid-out list stands at its beginning. -/
theorem LaidOut.head_address {a e : Nat} {rs : List Record} {r : Record} (h : LaidOut a rs e) (hr : rs.head? = some r) :
    r.address = a := by
  match rs with
  | [] => cases hr
  | q :: rs =>
    cases hr
    exact h.1

/-- What stands behind any one record begins where that record ends. -/
theorem LaidOut.next {a e k : Nat} {rs : List Record} {r : Record} {row : Row} {v : Text} (h : LaidOut a rs e)
    (hr : rs[k]? = some r) (hrow : rowOfText r.text = .ok (row, v)) :
    LaidOut (r.address + row.bytes) (rs.drop (k + 1)) e := by
  induction rs generalizing a k with
  | nil => simp at hr
  | cons q rs ih =>
    obtain ⟨haddr, row', v', hrow', hrest⟩ := h
    cases k with
    | zero =>
      cases hr
      rw [hrow] at hrow'
      cases hrow'
      rw [haddr]
      exact hrest
    | succ k => exact ih hrest hr

/-! ### Pass 1 -/

/-- What pass 1 keeps: the records are laid out from the origin to the running address, which is in the address space. -/
def Layout.Sound (l : Layout) : Prop := LaidOut Config.origin l.records l.addr ∧ l.addr ≤ Config.memorySize

theorem Layout.sound_start : Layout.start.Sound := ⟨rfl, by decide⟩

theorem Layout.bind_eq_ok {l l' : Layout} {label : Option Text} (h : l.bind label = .ok l') :
    l'.records = l.records ∧ l'.addr = l.addr := by
  unfold Layout.bind at h
  split at h
  · cases h
    exact ⟨rfl, rfl⟩
  · split at h
    · cases h
    · cases h
      exact ⟨rfl, rfl⟩

theorem Layout.place_eq_ok {l l' : Layout} {lineIndex : Nat} {raw text : Text}
    (h : l.place lineIndex raw text = .ok l') :
    ∃ row v, rowOfText text = .ok (row, v) ∧ l.addr + row.bytes ≤ Config.memorySize ∧
      l'.records = l.records ++ [{ lineIndex, rawText := raw, address := l.addr, text }] ∧
      l'.addr = l.addr + row.bytes := by
  unfold Layout.place at h
  split at h
  · cases h
  · split at h
    · cases h
    · next row v hrow =>
      split at h
      · cases h
      · next hfits =>
        cases h
        exact ⟨row, v, hrow, not_lt.mp hfits, rfl, rfl⟩

theorem Layout.sound_place {l l' : Layout} {lineIndex : Nat} {raw text : Text} (hl : l.Sound)
    (h : l.place lineIndex raw text = .ok l') : l'.Sound := by
  obtain ⟨row, v, hrow, hfits, hrecords, haddr⟩ := place_eq_ok h
  rw [Layout.Sound, hrecords, haddr]
  exact ⟨hl.1.append ⟨rfl, row, v, hrow, rfl⟩, hfits⟩

theorem Layout.sound_line {l l' : Layout} {lineIndex : Nat} {raw : Text} (hl : l.Sound)
    (h : l.line lineIndex raw = .ok l') : l'.Sound := by
  simp only [Layout.line] at h
  split at h
  · cases h
    exact hl
  · split at h
    · cases h
    · next m hbind =>
      obtain ⟨hrecords, haddr⟩ := bind_eq_ok hbind
      have hm : m.Sound := by rwa [Layout.Sound, hrecords, haddr]
      split at h
      · cases h
        exact hm
      · exact sound_place hm h

theorem Layout.sound_lines {l l' : Layout} {lineIndex : Nat} {src : List Text} (hl : l.Sound)
    (h : l.lines lineIndex src = .ok l') : l'.Sound := by
  induction src generalizing l lineIndex with
  | nil =>
    cases h
    exact hl
  | cons t ts ih =>
    simp only [Layout.lines] at h
    split at h
    · cases h
    · next m hline => exact ih (sound_line hl hline) h

theorem pass1_sound {src : List Text} {l : Layout} (h : pass1 src = .ok l) : l.Sound :=
  Layout.sound_lines Layout.sound_start h

/-! ### Pass 2 -/

theorem length_operandBytes (mode : Mode) (address value : Nat) :
    (operandBytes mode address value).length = mode.operandCount := by
  cases mode <;> rfl

/-- A record is emitted as the opcode of its row and as many bytes as the row says. -/
theorem Record.emit_eq_ok {symbols : Symbols} {r : Record} {bytes : List Byte} {row : Row} {v : Text}
    (h : r.emit symbols = .ok bytes) (hrow : rowOfText r.text = .ok (row, v)) :
    bytes.head? = some row.opcode ∧ bytes.length = row.bytes := by
  simp only [Record.emit, hrow] at h
  split at h
  · cases h
  · cases h
    rw [List.length_cons, length_operandBytes, bytes_eq_operandCount row (mem_of_rowOfText hrow)]
    exact ⟨rfl, rfl⟩

theorem pass2_cons_eq_ok {symbols : Symbols} {r : Record} {rs : List Record} {out : Assembled}
    (h : pass2 symbols (r :: rs) = .ok out) :
    ∃ bytes rest, r.emit symbols = .ok bytes ∧ pass2 symbols rs = .ok rest ∧
      out.bytecode = bytes ++ rest.bytecode ∧ out.addressToLine = (r.address, r.lineIndex) :: rest.addressToLine := by
  simp only [pass2] at h
  split at h
  · cases h
  · next bytes hemit =>
    split at h
    · cases h
    · next rest hrest =>
      cases h
      exact ⟨bytes, rest, hemit, hrest, rfl, rfl⟩

theorem pass2_addressToLine {symbols : Symbols} {rs : List Record} {out : Assembled} (h : pass2 symbols rs = .ok out) :
    out.addressToLine = rs.map (fun r => (r.address, r.lineIndex)) := by
  induction rs generalizing out with
  | nil =>
    cases h
    rfl
  | cons r rs ih =>
    obtain ⟨bytes, rest, -, hrest, -, hmap⟩ := pass2_cons_eq_ok h
    rw [hmap, ih hrest, List.map_cons]

/-- Both passes agree on the size. -/
theorem pass2_length {symbols : Symbols} {rs : List Record} {out : Assembled} {a e : Nat} (hlaid : LaidOut a rs e)
    (h : pass2 symbols rs = .ok out) : a + out.bytecode.length = e := by
  induction rs generalizing out a with
  | nil =>
    cases h
    exact hlaid.symm
  | cons r rs ih =>
    obtain ⟨-, row, v, hrow, hlaid⟩ := hlaid
    obtain ⟨bytes, rest, hemit, hrest, hbytes, -⟩ := pass2_cons_eq_ok h
    obtain ⟨-, hlen⟩ := Record.emit_eq_ok hemit hrow
    rw [hbytes, List.length_append, hlen, ← Nat.add_assoc]
    exact ih hlaid hrest

/-- The opcode of each record stands in the bytecode at the record's distance from the beginning. -/
theorem pass2_opcode {symbols : Symbols} {rs : List Record} {out : Assembled} {a e : Nat} {r : Record}
    (hlaid : LaidOut a rs e) (h : pass2 symbols rs = .ok out) (hr : r ∈ rs) :
    ∃ row v k, rowOfText r.text = .ok (row, v) ∧ r.address = a + k ∧ out.bytecode[k]? = some row.opcode := by
  induction rs generalizing out a with
  | nil => cases hr
  | cons q rs ih =>
    obtain ⟨haddr, row, v, hrow, hlaid⟩ := hlaid
    obtain ⟨bytes, rest, hemit, hrest, hbytes, -⟩ := pass2_cons_eq_ok h
    obtain ⟨hhead, hlen⟩ := Record.emit_eq_ok hemit hrow
    rw [hbytes]
    obtain rfl | hr := List.mem_cons.mp hr
    · obtain ⟨operands, rfl⟩ := List.head?_eq_some_iff.mp hhead
      exact ⟨row, v, 0, hrow, haddr, rfl⟩
    · obtain ⟨row', v', k, hrow', haddr', hop⟩ := ih hlaid hrest hr
      refine ⟨row', v', row.bytes + k, hrow', by omega, ?_⟩
      rw [← hlen, List.getElem?_append_right (by omega), Nat.add_sub_cancel_left]
      exact hop

/-! ### The assembled program -/

theorem assemble_eq_ok {src : List Text} {l : Layout} {out : Assembled} (hl : pass1 src = .ok l)
    (h : assemble src = .ok out) : pass2 l.symbols l.records = .ok out := by
  simpa [assemble, hl] using h

theorem pass1_of_assemble {src : List Text} {out : Assembled} (h : assemble src = .ok out) :
    ∃ l, pass1 src = .ok l := by
  unfold assemble at h
  split at h
  · cases h
  · next l hl => exact ⟨l, hl⟩

/-- Settles O49: pass 1 lays the records out, and pass 2 goes through the same records. -/
theorem assembledLayoutHasNoGaps : Obligations.AssembledLayoutHasNoGaps := by
  intro src l out hl hout
  obtain ⟨hlaid, -⟩ := pass1_sound hl
  have hpass2 := assemble_eq_ok hl hout
  refine ⟨pass2_addressToLine hpass2, ?_, fun r hr => hlaid.head_address hr, fun k r q row v hr hrow => ?_⟩
  · rw [Nat.add_comm]
    exact pass2_length hlaid hpass2
  · have hnext := hlaid.next hr hrow
    exact ⟨hnext.le, fun hq => hnext.head_address (by rwa [List.head?_drop])⟩

theorem assembled_fits {src : List Text} {out : Assembled} (h : assemble src = .ok out) :
    out.bytecode.length ≤ 0xFE00 := by
  obtain ⟨l, hl⟩ := pass1_of_assemble h
  obtain ⟨hlaid, hend⟩ := pass1_sound hl
  have hlen : 0x0200 + out.bytecode.length = l.addr := pass2_length hlaid (assemble_eq_ok hl h)
  have hspace : l.addr ≤ 65536 := hend
  omega

/-- Settles O50: pass 1 refuses what would end above 0xFFFF. -/
theorem assembledProgramsLoad : Obligations.AssembledProgramsLoad := fun _ _ s h =>
  ⟨_, loadCommand_of_fits (assembled_fits h) s⟩

/-- A byte of the loaded list is read at its distance from the origin. -/
theorem memRead_loadBytes_of_getElem {bytes : List Byte} {k : Nat} {v : Byte} (hfits : bytes.length ≤ 0xFE00)
    (h : bytes[k]? = some v) (s : State) : (s.loadBytes bytes).memRead (BitVec.ofNat 16 (0x0200 + k)) = v := by
  obtain ⟨hk, -⟩ := List.getElem?_eq_some_iff.mp h
  have haddr : (BitVec.ofNat 16 (0x0200 + k)).toNat = 0x0200 + k := by
    rw [BitVec.toNat_ofNat]
    omega
  rw [memRead_loadBytes, haddr, if_pos (by omega), Nat.add_sub_cancel_left, List.getD_eq_getElem?_getD, h,
    Option.getD_some]

/-- An opcode of the table in memory at PC fixes the length of what is decoded there. -/
theorem encode_fetchInstr_of_row {s : State} {row : Row} (hmem : row ∈ instructionTable)
    (h : s.memRead s.PC = row.opcode) :
    ∃ operands, encode s.fetchInstr = row.opcode :: operands ∧ operands.length + 1 = row.bytes := by
  have hlen : lengthOfOpcode row.opcode = row.bytes := by simp [lengthOfOpcode, rowOfOpcode_opcode row hmem]
  refine ⟨[s.memRead (s.PC + 1), s.memRead (s.PC + 2)].take (row.bytes - 1), ?_, ?_⟩
  · rw [State.fetchInstr, encode_decodeInstr, h, hlen]
  · have hcases := lengthOfOpcode_cases row.opcode
    rw [List.length_take, ← hlen]
    simp only [List.length_cons, List.length_nil]
    omega

/-- Settles O51: the opcode that pass 2 emits for the record is loaded at the record's address. -/
theorem assembledAddressesHoldTheirInstructions : Obligations.AssembledAddressesHoldTheirInstructions := by
  intro src l out s t r hl hout hload hr
  obtain ⟨hlaid, -⟩ := pass1_sound hl
  obtain ⟨row, v, k, hrow, haddr, hop⟩ := pass2_opcode hlaid (assemble_eq_ok hl hout) hr
  have hfits := assembled_fits hout
  obtain rfl : s.loadBytes out.bytecode = t := by
    rw [loadCommand_of_fits hfits] at hload
    simpa using hload
  have hread : (s.loadBytes out.bytecode).memRead (BitVec.ofNat 16 r.address) = row.opcode := by
    rw [haddr]
    exact memRead_loadBytes_of_getElem hfits hop s
  have hmem := mem_of_rowOfText hrow
  exact ⟨row, v, hrow, rowOfOpcode_opcode row hmem, hread, encode_fetchInstr_of_row hmem hread⟩

end Sys2Proof.Machine

/-! ## A program of one line (45_assembler.md section 5) -/

namespace Sys2Proof.Machine

theorem colon_not_mem_mnemonicNames : ∀ p ∈ mnemonicNames, ':' ∉ p.2.toList := by
  decide

/-- A text that selects a row begins with a mnemonic. -/
theorem mnemonic_of_rowOfText {t : Text} {row : Row} {v : Text} (h : rowOfText t = .ok (row, v)) :
    ∃ mn, mnemonicOfText (t.takeWhile (· != ' ')) = some mn := by
  simp only [rowOfText, splitInstruction] at h
  split at h
  · cases h
  · next mn hmn => exact ⟨mn, hmn⟩

theorem colon_not_mem_of_mnemonicOfText {t : Text} {mn : Mnemonic} (h : mnemonicOfText t = some mn) : ':' ∉ t := by
  obtain ⟨p, hfind, -⟩ := Option.map_eq_some_iff.mp h
  obtain rfl : p.2.toList = t := by simpa using List.find?_some hfind
  exact colon_not_mem_mnemonicNames p (List.mem_of_find?_eq_some hfind)

theorem ne_nil_of_rowOfText {t : Text} {row : Row} {v : Text} (h : rowOfText t = .ok (row, v)) : t ≠ [] := by
  rintro rfl
  obtain ⟨mn, hmn⟩ := mnemonic_of_rowOfText h
  have hnone : mnemonicOfText [] = none := by decide
  cases hnone.symm.trans hmn

/-- A leading label puts its colon before the first space. -/
theorem colon_mem_takeWhile_of_label {t rest : Text} (h : t.drop (t.takeWhile isIdentChar).length = ':' :: rest) :
    ':' ∈ t.takeWhile (· != ' ') := by
  have hspace : ∀ c ∈ t.takeWhile isIdentChar, (c != ' ') = true := by
    intro c hc
    have hident := List.mem_takeWhile_imp hc
    rw [bne_iff_ne]
    rintro rfl
    exact absurd hident (by decide)
  have hrest : t.dropWhile isIdentChar = ':' :: rest := by
    rw [← h]
    exact (List.drop_left.symm.trans (congrArg _ List.takeWhile_append_dropWhile))
  have ht : t = t.takeWhile isIdentChar ++ ':' :: rest := by
    rw [← hrest, List.takeWhile_append_dropWhile]
  rw [ht, List.takeWhile_append_of_pos hspace]
  simp

/-- So a text that selects a row has no leading label. -/
theorem splitLabel_of_rowOfText {t : Text} {row : Row} {v : Text} (h : rowOfText t = .ok (row, v)) :
    splitLabel t = (none, t) := by
  obtain ⟨mn, hmn⟩ := mnemonic_of_rowOfText h
  simp only [splitLabel]
  split
  · next rest hlabel =>
    exact absurd (colon_mem_takeWhile_of_label hlabel) (colon_not_mem_of_mnemonicOfText hmn)
  · rfl

/-- Pass 1 of one line that selects a row records it at the origin. -/
theorem pass1_one_line {line : Text} {l : Layout} {row : Row} {v : Text} (hl : pass1 [line] = .ok l)
    (h : rowOfText (prepare line) = .ok (row, v)) :
    l.records = [{ lineIndex := 0, rawText := line, address := 0x0200, text := prepare line }] := by
  have hnonempty : (prepare line).isEmpty = false := by simpa using ne_nil_of_rowOfText h
  have hplace : Layout.start.place 0 line (prepare line) = .ok l := by
    simp only [pass1, Layout.lines, Layout.line, splitLabel_of_rowOfText h, Layout.bind, hnonempty] at hl
    split at hl
    · cases hl
    · next m hm =>
      cases hl
      simpa using hm
  obtain ⟨-, -, -, -, hrecords, -⟩ := Layout.place_eq_ok hplace
  exact hrecords

/-- Settles O52: pass 1 leaves one record, and pass 2 emits it at the origin. -/
theorem oneLineAssemblesToItsOpcode : Obligations.OneLineAssemblesToItsOpcode := by
  intro line out row v hout hrow
  obtain ⟨l, hl⟩ := pass1_of_assemble hout
  have hpass2 := assemble_eq_ok hl hout
  rw [pass1_one_line hl hrow] at hpass2
  obtain ⟨bytes, rest, hemit, hrest, hbytes, hmap⟩ := pass2_cons_eq_ok hpass2
  obtain ⟨hhead, hlen⟩ := Record.emit_eq_ok hemit hrow
  cases hrest
  rw [hbytes, hmap, List.append_nil]
  exact ⟨hhead, hlen, rfl⟩

end Sys2Proof.Machine
